-- ==== Sys2Proof/Word.lean ====
section
/-! DEFINITION. The word types of the Base64 codec block: bytes, sextets, the host command record HC
(30_encoding.md R102) and the code that selects one step of an agent (R96, R102). -/

namespace Sys2Proof

/-- One cell of a buffer: a byte or a character code (00_scope.md R8). -/
abbrev Byte := BitVec 8

/-- A 6-bit field of an encode group or a looked-up value of a decode group (R92, R94). -/
abbrev Sextet := BitVec 6

/-- The buffer selector of RBUF: sel = 0 is IBUF, sel = 1 is OBUF (R102). -/
inductive BufSel where
  | ibuf
  | obuf
deriving DecidableEq, Repr, Inhabited

/-- The 1-bit code of a buffer selector. -/
def BufSel.code : BufSel → BitVec 1
  | .ibuf => 0#1
  | .obuf => 1#1

/-- The buffer a 1-bit selector names. -/
def BufSel.ofCode (b : BitVec 1) : BufSel :=
  if b = 0#1 then .ibuf else .obuf

/-- The host command record HC of R102: `op` is 2 bits, `sel` 1 bit, `num` is "n or idx", `val` the
value. How the record travels is open (D11), so `num` and `val` are plain numbers here. -/
structure HostRecord where
  op  : BitVec 2
  sel : BitVec 1
  num : Nat
  val : Nat
deriving DecidableEq, Repr, Inhabited

/-- What selects one step: the block descriptor BD the sequencer forms (R96), or the host command
record the host sends (R102). -/
inductive Code where
  | bd (b : BitVec 4)
  | hc (r : HostRecord)
deriving DecidableEq, Repr

end Sys2Proof
end

