-- ==== Sys2Proof/Config.lean ====
section
/-! DEFINITION. What one instance of the block fixes: the straps and sizes the spec leaves OPEN
(00_scope.md R5 to R9; 92_eei_decisions.md), and the free byte of an unspecified cell
(93_implementation_defined.md U4, U5). -/

namespace Sys2Proof

/-- The strap PAD_MODE (R5, R27). -/
inductive PadMode where
  | passthrough
  | truncate
deriving DecidableEq, Repr, Inhabited

/-- The strap INVALID_POLICY (R6, R27). -/
inductive InvalidPolicy where
  | permissive
  | strict
deriving DecidableEq, Repr, Inhabited

/-- The parameters of an instance (R5 to R9). No step changes them. -/
structure Params where
  padMode       : PadMode
  invalidPolicy : InvalidPolicy
  revDefault    : Sextet
  /-- LEN_W, the width in bits of lengths and pointers. -/
  lenW          : Nat
  /-- ICAP, the number of cells of IBUF. -/
  icap          : Nat
  /-- OCAP, the number of cells of OBUF. -/
  ocap          : Nat
deriving DecidableEq, Repr, Inhabited

/-- The constraints of R9: LEN_W is at least 2, ICAP and OCAP are below 2^LEN_W. -/
abbrev Params.Valid (p : Params) : Prop :=
  2 ≤ p.lenW ∧ p.icap < 2 ^ p.lenW ∧ p.ocap < 2 ^ p.lenW

/-- The instance that `State.reset` is an instance of (log entry 2): the reference behaviour
(PASSTHROUGH, PERMISSIVE, REV_DEFAULT 0), the suggested LEN_W of 32, and two capacities the spec leaves
open. DESIGN CHOICE, unsafe only for a claim about `State.reset` itself: every other claim ranges over
all parameters. -/
def Config.reference : Params where
  padMode       := .passthrough
  invalidPolicy := .permissive
  revDefault    := 0#6
  lenW          := 32
  icap          := 4096
  ocap          := 8192

/-- The value that the n-th read of an unspecified cell returns (U4, U5; log entry 7). It has no body:
nothing can be proved of it. DESIGN CHOICE, safe. -/
opaque Config.freeByte : Nat → Byte

end Sys2Proof
end

