-- ==== Sys2Proof/Machine/Rom.lean ====
section
/-! DEFINITION. The two ROMs (10_state.md R30 to R34) and the classes of a character code
(00_scope.md R16; 30_encoding.md R99). -/

namespace Sys2Proof.Machine

/-- The entries 0 to 25 of ALPHA, 'A' to 'Z' (R30). -/
def alphaUpper : List Byte :=
  [0x41#8, 0x42#8, 0x43#8, 0x44#8, 0x45#8, 0x46#8, 0x47#8, 0x48#8, 0x49#8, 0x4A#8, 0x4B#8, 0x4C#8, 0x4D#8,
   0x4E#8, 0x4F#8, 0x50#8, 0x51#8, 0x52#8, 0x53#8, 0x54#8, 0x55#8, 0x56#8, 0x57#8, 0x58#8, 0x59#8, 0x5A#8]

/-- The entries 26 to 51 of ALPHA, 'a' to 'z' (R30). -/
def alphaLower : List Byte :=
  [0x61#8, 0x62#8, 0x63#8, 0x64#8, 0x65#8, 0x66#8, 0x67#8, 0x68#8, 0x69#8, 0x6A#8, 0x6B#8, 0x6C#8, 0x6D#8,
   0x6E#8, 0x6F#8, 0x70#8, 0x71#8, 0x72#8, 0x73#8, 0x74#8, 0x75#8, 0x76#8, 0x77#8, 0x78#8, 0x79#8, 0x7A#8]

/-- The entries 52 to 63 of ALPHA, '0' to '9', '+', '/' (R30). -/
def alphaDigits : List Byte :=
  [0x30#8, 0x31#8, 0x32#8, 0x33#8, 0x34#8, 0x35#8, 0x36#8, 0x37#8, 0x38#8, 0x39#8, 0x2B#8, 0x2F#8]

/-- The alphabet ROM, 64 entries of 8 bits (R30). -/
def alphaTable : List Byte := alphaUpper ++ alphaLower ++ alphaDigits

/-- `ALPHA[i]`: a 6-bit index cannot leave the table (R60), so the default is never read. -/
def alpha (i : Sextet) : Byte := alphaTable.getD i.toNat 0#8

/-- `REV[c]`: the index at which the alphabet holds `c`, else REV_DEFAULT (R32). -/
def rev (revDefault : Sextet) (c : Byte) : Sextet :=
  match alphaTable.idxOf? c with
  | some i => BitVec.ofNat 6 i
  | none   => revDefault

/-- The Padding Marker `=` (R34). -/
def padMarker : Byte := 0x3D#8

/-- `IsAlpha(c)` of R16. -/
def isAlpha (c : Byte) : Bool :=
  (decide (0x41#8 ≤ c) && decide (c ≤ 0x5A#8)) || (decide (0x61#8 ≤ c) && decide (c ≤ 0x7A#8)) ||
  (decide (0x30#8 ≤ c) && decide (c ≤ 0x39#8)) || decide (c = 0x2B#8) || decide (c = 0x2F#8)

/-- `IsPad(c)` of R16. -/
def isPad (c : Byte) : Bool := decide (c = padMarker)

/-- `IsInvalid(c)` of R16: neither in the alphabet nor the Padding Marker. -/
def isInvalid (c : Byte) : Bool := !isAlpha c && !isPad c

end Sys2Proof.Machine
end

