-- ==== Sys2Proof/Machine/Operands.lean ====
section
/-! DEFINITION. The operand forms of a group: the four 6-bit fields of an encode group (30_encoding.md
R91, R92), the sextets and bytes of a decode group (R93 to R95), and the 24-bit values they are slices of. -/

namespace Sys2Proof.Machine

/-- `field1 = b0 >> 2` (R92). -/
def field1 (b0 : Byte) : Sextet := (b0 >>> 2).setWidth 6

/-- `field2 = ((b0 & 0x03) << 4) | (b1 >> 4)` (R92). -/
def field2 (b0 b1 : Byte) : Sextet := (((b0 &&& 0x03#8) <<< 4) ||| (b1 >>> 4)).setWidth 6

/-- `field3 = ((b1 & 0x0F) << 2) | (b2 >> 6)` (R92). -/
def field3 (b1 b2 : Byte) : Sextet := (((b1 &&& 0x0F#8) <<< 2) ||| (b2 >>> 6)).setWidth 6

/-- `field4 = b2 & 0x3F` (R92). -/
def field4 (b2 : Byte) : Sextet := (b2 &&& 0x3F#8).setWidth 6

/-- `field2 = (b0 & 0x03) << 4` of a 1-byte final group (R123). -/
def field2Final (b0 : Byte) : Sextet := ((b0 &&& 0x03#8) <<< 4).setWidth 6

/-- `field3 = (b1 & 0x0F) << 2` of a 2-byte final group (R122). -/
def field3Final (b1 : Byte) : Sextet := ((b1 &&& 0x0F#8) <<< 2).setWidth 6

/-- The 24-bit value of an encode group, `G = cat(b0, b1, b2)` (R91). -/
def groupG (b0 b1 b2 : Byte) : BitVec 24 := b0 ++ b1 ++ b2

/-- `b0 = (s1 << 2) | (s2 >> 4)` (R95). -/
def byte0 (s1 s2 : Sextet) : Byte := (s1.setWidth 8 <<< 2) ||| (s2.setWidth 8 >>> 4)

/-- `b1 = ((s2 & 0x0F) << 4) | (s3 >> 2)` (R95). -/
def byte1 (s2 s3 : Sextet) : Byte := ((s2.setWidth 8 &&& 0x0F#8) <<< 4) ||| (s3.setWidth 8 >>> 2)

/-- `b2 = ((s3 & 0x03) << 6) | s4` (R95). -/
def byte2 (s3 s4 : Sextet) : Byte := ((s3.setWidth 8 &&& 0x03#8) <<< 6) ||| s4.setWidth 8

/-- The 24-bit value of a decode group, `H = cat(s1, s2, s3, s4)` (R94). -/
def groupH (s1 s2 s3 s4 : Sextet) : BitVec 24 := s1 ++ s2 ++ s3 ++ s4

end Sys2Proof.Machine
end

