-- ==== Sys2Proof/Syntax.lean ====
section
/-! DEFINITION. The operations of the block: one constructor per row of spec/opcode_table.json, nine
block operations (30_encoding.md R96) and four host commands (R102). -/

namespace Sys2Proof

/-- The instructions: what one step of the block or one command of the host does. -/
inductive Instr where
  /-- EHALT: end of an encode run (R182). -/
  | ehalt
  /-- ENC1: 1-byte final group (R123). -/
  | enc1
  /-- ENC2: 2-byte final group (R122). -/
  | enc2
  /-- ENC3: full 3-byte group (R121). -/
  | enc3
  /-- DHALT: end of a decode run (R182). -/
  | dhalt
  /-- DEC1: 1-character trailing remainder, dropped (R144). -/
  | dec1
  /-- DEC2: 2-character trailing group (R143). -/
  | dec2
  /-- DEC3: 3-character trailing group (R142). -/
  | dec3
  /-- DEC4: full 4-character group (R141). -/
  | dec4
  /-- RREG n: return host register n (R172). -/
  | rreg (n : Nat)
  /-- WREG n, val: write host register n (R173). -/
  | wreg (n : Nat) (val : Nat)
  /-- RBUF sel, idx: return one cell of a buffer (R174). -/
  | rbuf (sel : BufSel) (idx : Nat)
  /-- WBUF idx, val: write one cell of IBUF (R175). -/
  | wbuf (idx : Nat) (val : Byte)
deriving DecidableEq, Repr

end Sys2Proof
end

