-- ==== Sys2Proof/WellFormed.lean ====
section
/-! DEFINITION. Well-formed instructions: an operand the spec makes LEN_W bits wide fits in LEN_W bits
(42_sequencer_and_host.md R173; 20_memory.md R60). -/

namespace Sys2Proof

/-- The operand checks, for a block whose lengths are `lenW` bits wide. The register number of RREG
and WREG has no stated width: a number above 7 is a well-formed command that the block ignores and the
model marks (R172, R173, R207). -/
def Instr.wf (lenW : Nat) : Instr → Bool
  | .ehalt => true
  | .enc1 => true
  | .enc2 => true
  | .enc3 => true
  | .dhalt => true
  | .dec1 => true
  | .dec2 => true
  | .dec3 => true
  | .dec4 => true
  | .rreg _ => true
  | .wreg _ v => decide (v < 2 ^ lenW)
  | .rbuf _ i => decide (i < 2 ^ lenW)
  | .wbuf i _ => decide (i < 2 ^ lenW)

end Sys2Proof
end

