-- ==== Sys2Proof/Decode.lean ====
section
/-! DEFINITION. The decoder of block descriptors (30_encoding.md R96, R98) and host command records
(R102), total and refusing by name, and the encoder written from the same tables. -/

namespace Sys2Proof

/-- Why a code is no instruction. -/
inductive DecodeError where
  /-- BD 0b0100 to 0b0111 and 0b1101 to 0b1111 (R98, U8). No reachable state forms one. -/
  | reservedDescriptor (b : BitVec 4)
  /-- op = 3 with sel = 1: "sel is fixed to 0, the host cannot write OBUF" (R102). -/
  | writeToObuf
  /-- op = 3 with a value wider than a cell: the operand is 8 bits (R102, R175). -/
  | cellValueTooWide (val : Nat)
deriving DecidableEq, Repr

/-- The decoder of the block descriptor, from the table of R96. -/
def decodeDescriptor (b : BitVec 4) : Except DecodeError Instr :=
  match b with
  | 0b0000#4 => .ok .ehalt
  | 0b0001#4 => .ok .enc1
  | 0b0010#4 => .ok .enc2
  | 0b0011#4 => .ok .enc3
  | 0b1000#4 => .ok .dhalt
  | 0b1001#4 => .ok .dec1
  | 0b1010#4 => .ok .dec2
  | 0b1011#4 => .ok .dec3
  | 0b1100#4 => .ok .dec4
  | _        => .error (.reservedDescriptor b)

/-- The decoder of a host command record, from the table of R102. A field that is no operand of the
command is not looked at, but for `sel` of WBUF, which the table fixes to 0. -/
def decodeRecord (r : HostRecord) : Except DecodeError Instr :=
  match r.op with
  | 0b00#2 => .ok (.rreg r.num)
  | 0b01#2 => .ok (.wreg r.num r.val)
  | 0b10#2 => .ok (.rbuf (BufSel.ofCode r.sel) r.num)
  | _ =>
    if r.sel = 0#1 then
      if r.val < 256 then .ok (.wbuf r.num (BitVec.ofNat 8 r.val))
      else .error (.cellValueTooWide r.val)
    else .error .writeToObuf

/-- The decoder. -/
def decode : Code → Except DecodeError Instr
  | .bd b => decodeDescriptor b
  | .hc r => decodeRecord r

/-- The encoder: the code of an instruction, the fields that are no operand of it zero. -/
def encode : Instr → Code
  | .ehalt      => .bd 0b0000#4
  | .enc1       => .bd 0b0001#4
  | .enc2       => .bd 0b0010#4
  | .enc3       => .bd 0b0011#4
  | .dhalt      => .bd 0b1000#4
  | .dec1       => .bd 0b1001#4
  | .dec2       => .bd 0b1010#4
  | .dec3       => .bd 0b1011#4
  | .dec4       => .bd 0b1100#4
  | .rreg n     => .hc { op := 0b00#2, sel := 0#1, num := n, val := 0 }
  | .wreg n v   => .hc { op := 0b01#2, sel := 0#1, num := n, val := v }
  | .rbuf s i   => .hc { op := 0b10#2, sel := s.code, num := i, val := 0 }
  | .wbuf i v   => .hc { op := 0b11#2, sel := 0#1, num := i, val := v.toNat }

/-- A code with every field that is no operand of its command set to zero: what the encoder writes. -/
def Code.canonical : Code → Code
  | .bd b => .bd b
  | .hc r =>
    match r.op with
    | 0b00#2 => .hc { r with sel := 0#1, val := 0 }
    | 0b01#2 => .hc { r with sel := 0#1 }
    | 0b10#2 => .hc { r with val := 0 }
    | _ => .hc r

/-- The code that `nbits` bits `w` of spec/opcode_table.json stand for. A table row gives a BD row 4
bits and an HC row 2 bits (its op field, no operand). So up to 2 bits are read as the op of a record
whose operands are zero, more bits as a block descriptor with zeros above bit 3. Rounded to whole bytes
the two formats overlap on 0 to 3, and are then read as descriptors (log entry 14). -/
def tableCode (nbits w : Nat) : Option Code :=
  if nbits ≤ 2 then
    if w < 4 then some (.hc { op := BitVec.ofNat 2 w, sel := 0#1, num := 0, val := 0 }) else none
  else
    if w < 16 then some (.bd (BitVec.ofNat 4 w)) else none

/-- The instruction the decoder reads from a row's bits. -/
def decodeTableWord (nbits w : Nat) : Option Instr :=
  match tableCode nbits w with
  | some c => (decode c).toOption
  | none => none

end Sys2Proof
end

