-- ==== Sys2Proof/Machine/State.lean ====
section
/-! DEFINITION. The state of the block and of its host as plain data (10_state.md R20), the reasons a
step can stop, and the state after reset (R40). -/

namespace Sys2Proof.Machine

/-- The register MODE (R21). -/
inductive Mode where
  | enc
  | dec
deriving DecidableEq, Repr, Inhabited

/-- The register STATUS (R23). -/
inductive Status where
  | idle
  | busy
  | done
  | error
deriving DecidableEq, Repr, Inhabited

/-- A buffer: the cells that have been written since reset, addresses strictly rising. An address that
is not listed holds an unspecified value (R40, U4, U5). -/
abbrev Memory := List Host.Cell

/-- What a host command returns: a register value of RREG (R172) or a cell of RBUF (R174). -/
inductive Reply where
  | reg (v : Nat)
  | cell (v : Byte)
deriving DecidableEq, Repr

/-- Why the model marks a host command that the hardware ignores (60_exceptions.md R207). -/
inductive CommandRefusal where
  /-- A START whose launch premise fails (R178, U7). -/
  | launchExceedsCapacity
  /-- RREG or WREG of a register number above 7 (R172, R173, U6). -/
  | reservedRegister
  /-- RBUF or WBUF at or above the capacity of the buffer (R174, R175, U6). -/
  | indexOutOfRange
deriving DecidableEq, Repr

/-- One move of the host (R170, R188; log entry 3). -/
inductive HostMove where
  /-- The host issues one command. -/
  | issue (r : HostRecord)
  /-- The reset event (70_reset_and_hazards.md R230). -/
  | reset
  /-- The host makes no move, so that the block takes its step. -/
  | wait
  /-- WAIT: "repeat `RREG STATUS` until the value is not 1" (30_encoding.md R103). -/
  | pollStatus
  /-- The end of a call: `RREG OLEN`, which returns L, then `RBUF OBUF, 0` to `RBUF OBUF, L-1` (R103). -/
  | readOutput
deriving DecidableEq, Repr

/-- The complete state: the six registers and two memories of R20, the instance's constants, and the
model's own record of the host (entries 3, 5, 6, 7). Lengths are naturals, kept in range by an invariant
(entry 11). -/
structure State where
  /-- The straps and sizes of the instance (R5 to R9, R27; entry 1); changed by no step. -/
  params    : Params
  /-- MODE (R21). -/
  mode      : Mode
  /-- ILEN (R22), below 2^LEN_W. -/
  ilen      : Nat
  /-- STATUS (R23). -/
  status    : Status
  /-- RP, the program counter (R24), below 2^LEN_W. -/
  rp        : Nat
  /-- WP, read by the host as OLEN (R25), below 2^LEN_W. -/
  wp        : Nat
  /-- ERRIDX (R28), below 2^LEN_W. -/
  errIdx    : Nat
  /-- IBUF (R36). -/
  ibuf      : Memory
  /-- OBUF (R37). -/
  obuf      : Memory
  /-- The model's own: what the host does next, in order (entry 3). -/
  hostMoves : List HostMove
  /-- The model's own: what the last host command returned, if it returned a value (entry 5). -/
  reply     : Option Reply
  /-- The model's own: the mark of R207, the reason of the last refused command (entry 6). -/
  refused   : Option CommandRefusal
  /-- The model's own: how many free values have been drawn (entry 7). -/
  draws     : Nat
deriving DecidableEq, Repr

/-- An access that the spec says does not exist. Neither occurs in a reachable state (R178, R180:
"neither access can fault"). -/
inductive Fault where
  /-- A block operation reads IBUF at or above ICAP. Raised by ENC1 to ENC3 and DEC1 to DEC4. Safe: the
  machine stops (entry 10). -/
  | ibufOutOfRange
  /-- A block operation writes OBUF at or above OCAP. Raised by ENC1 to ENC3 and DEC2 to DEC4. Safe: the
  machine stops (entry 10). -/
  | obufOutOfRange
deriving DecidableEq, Repr

/-- Why a step has no meaning. -/
inductive Refusal where
  /-- An instruction without a meaning yet; raised by the dispatch only. Safe. -/
  | notModelled (mnemonic : String)
  /-- A code that is no instruction; raised by the step. Safe (R98; entry 12). -/
  | undecodable (e : DecodeError)
  /-- An operand wider than LEN_W bits, which no host can present; raised by the step. Safe (entry 12). -/
  | operandTooWide
  /-- A block operation that the sequencer does not select in this state (R96, R181); raised by the nine
  block operations; the step never asks for one in a reachable state. Safe (entry 9). -/
  | notSelected
deriving DecidableEq, Repr

/-- The state after reset of an instance with parameters `p` (R40, R230, R231): every register 0, both
buffers unspecified. -/
def State.resetWith (p : Params) : State where
  params    := p
  mode      := .enc
  ilen      := 0
  status    := .idle
  rp        := 0
  wp        := 0
  errIdx    := 0
  ibuf      := []
  obuf      := []
  hostMoves := []
  reply     := none
  refused   := none
  draws     := 0

/-- The state after reset (R40), of the instance named in log entry 2. -/
def State.reset : State := State.resetWith Config.reference

end Sys2Proof.Machine
end

