-- ==== Sys2Proof/Machine/Flags.lean ====
section
/-! DEFINITION. The block has no flags (10_state.md R39). What it reports are the register codes of
STATUS, MODE, CAUSE and CONFIG (R21, R23, R26, R28). -/

namespace Sys2Proof.Machine

/-- The bit of MODE (R21). -/
def Mode.bit : Mode → BitVec 1
  | .enc => 0#1
  | .dec => 1#1

/-- The mode a written value selects: bit 0, the upper bits ignored (R26, R173). -/
def Mode.ofValue (v : Nat) : Mode := if v % 2 = 1 then .dec else .enc

/-- The 2-bit code of STATUS (R23). -/
def Status.code : Status → BitVec 2
  | .idle  => 0#2
  | .busy  => 1#2
  | .done  => 2#2
  | .error => 3#2

/-- CAUSE: 1 (`InvalidCharacter`) when STATUS = ERROR, 0 otherwise (R28). -/
def State.cause (s : State) : BitVec 2 :=
  match s.status with
  | .error => 1#2
  | .idle  => 0#2
  | .busy  => 0#2
  | .done  => 0#2

/-- The strap bit of PAD_MODE (R27). -/
def padModeBit : PadMode → BitVec 1
  | .passthrough => 0#1
  | .truncate    => 1#1

/-- The strap bit of INVALID_POLICY (R27). -/
def invalidPolicyBit : InvalidPolicy → BitVec 1
  | .permissive => 0#1
  | .strict     => 1#1

/-- CONFIG: [0] PAD_MODE, [1] INVALID_POLICY, [7:2] REV_DEFAULT (R26). -/
def configBits (p : Params) : BitVec 8 :=
  p.revDefault ++ invalidPolicyBit p.invalidPolicy ++ padModeBit p.padMode

end Sys2Proof.Machine
end

