-- ==== Sys2Proof/Machine/Ops.lean ====
section
/-! DEFINITION. The named operations over buffers and registers: reading and writing cells
(00_scope.md R15; 20_memory.md R64, R65), the completion of a block operation (42_sequencer_and_host.md
R180), taking the one exception (60_exceptions.md R204), launching a run (R177, R178), and what a host
command leaves with the host. -/

namespace Sys2Proof.Machine

/-! ## Buffers -/

/-- The canonical form of a buffer: addresses strictly rising. An unlisted address has no value, so
there is no value whose entry must be absent. -/
abbrev Memory.Canonical (m : Memory) : Prop := m.Pairwise (fun x y => x.1 < y.1)

/-- `Memory.wf` as a Boolean check. -/
def Memory.wf (m : Memory) : Bool := decide m.Canonical

/-- The cell at an address; `none` where nothing has been written since reset (R40). -/
def Memory.read : Memory → Nat → Option Byte
  | [], _ => none
  | (b, v) :: t, a => if b = a then some v else Memory.read t a

/-- Write one cell, keeping the addresses rising. -/
def Memory.write : Memory → Nat → Byte → Memory
  | [], a, v => [(a, v)]
  | (b, w) :: t, a, v =>
    if a < b then (a, v) :: (b, w) :: t
    else if a = b then (a, v) :: t
    else (b, w) :: Memory.write t a v

/-- `MemWrite(addr, n, v)` of R15: the elements of `vs` at `a`, `a + 1`, ... in ascending order. -/
def Memory.writeCells (m : Memory) (a : Nat) : List Byte → Memory
  | [] => m
  | v :: vs => Memory.writeCells (m.write a v) (a + 1) vs

/-- One read of a cell: what was written, or a free value for an unspecified cell, with the count of
values drawn so far (U4, U5; log entry 7). -/
def fetchCell (m : Memory) (draws : Nat) (a : Nat) : Byte × Nat :=
  match m.read a with
  | some v => (v, draws)
  | none   => (Config.freeByte draws, draws + 1)

/-- `MemRead(addr, n)` of R15: `n` cells in ascending order, and the count of values drawn. -/
def fetchCells (m : Memory) (draws : Nat) (a : Nat) : Nat → List Byte × Nat
  | 0 => ([], draws)
  | n + 1 =>
    ((fetchCell m draws a).1 :: (fetchCells m (fetchCell m draws a).2 (a + 1) n).1,
     (fetchCells m (fetchCell m draws a).2 (a + 1) n).2)

/-! ## Lengths (R17) -/

/-- `EncLen(N) = 4 * ceil(N / 3)`. -/
def encLen (n : Nat) : Nat := 4 * ((n + 2) / 3)

/-- `Tail(r)`: the bytes a decode group of `r` characters yields. -/
def tail : Nat → Nat
  | 0 => 0
  | 1 => 0
  | 2 => 1
  | 3 => 2
  | _ => 3

/-- `DecLenMax(N) = 3 * floor(N / 4) + Tail(N mod 4)`. -/
def decLenMax (n : Nat) : Nat := 3 * (n / 4) + tail (n % 4)

/-- `OutMax(MODE, N)`. -/
def outMax : Mode → Nat → Nat
  | .enc, n => encLen n
  | .dec, n => decLenMax n

/-! ## Groups (20_memory.md R62; 30_encoding.md R96) -/

/-- `W`: 3 in ENC mode, 4 in DEC mode. -/
def groupWidth : Mode → Nat
  | .enc => 3
  | .dec => 4

/-- `cnt = min(W, ILEN - RP)`. -/
def State.groupCount (s : State) : Nat := min (groupWidth s.mode) (s.ilen - s.rp)

/-- The sequencer selects the operation of mode `m` on `cnt` cells: a run is in progress, the read
pointer is inside the input, and the block descriptor is `cat(m, cnt)` (R96, R181). -/
abbrev State.Selects (s : State) (m : Mode) (cnt : Nat) : Prop :=
  s.status = .busy ∧ s.mode = m ∧ s.rp ≤ s.ilen ∧ s.groupCount = cnt

/-! ## Register updates -/

/-- The completion of a block operation on `cnt` cells that emits `out`: MemWrite at WP, then the two
pointer updates (R180). -/
def State.advance (s : State) (cnt : Nat) (out : List Byte) : State :=
  { s with
    obuf := s.obuf.writeCells s.wp out
    rp   := s.rp + cnt
    wp   := s.wp + out.length }

/-- TAKING THE EXCEPTION: `raise InvalidCharacter(idx)` of R204. STATUS becomes ERROR, so CAUSE reads
1, ERRIDX takes the index, and nothing else changes. There is no return from it: the next START begins
anew (R205). -/
def State.raiseInvalidCharacter (s : State) (idx : Nat) : State :=
  { s with
    status := .error
    errIdx := idx }

/-- The halting step (R182). -/
def State.halt (s : State) : State := { s with status := .done }

/-- An accepted START (R177). -/
def State.launch (s : State) : State :=
  { s with
    status := .busy
    rp     := 0
    wp     := 0
    errIdx := 0 }

/-- The free values drawn so far (log entry 7). -/
def State.withDraws (s : State) (d : Nat) : State := { s with draws := d }

/-- A write of MODE that is not ignored (R173). -/
def State.setMode (s : State) (m : Mode) : State := { s with mode := m }

/-- A write of ILEN that is not ignored (R173). -/
def State.setIlen (s : State) (n : Nat) : State := { s with ilen := n }

/-- A write of an IBUF cell that is not ignored (R175). -/
def State.storeInput (s : State) (idx : Nat) (v : Byte) : State :=
  { s with ibuf := s.ibuf.write idx v }

/-- What a host command returns (R172, R174), `none` for a command that returns nothing (entry 5). -/
def State.answer (s : State) (r : Option Reply) : State := { s with reply := r }

/-- A command the hardware ignores and the model marks: no register changes, no value is returned, and
the reason is recorded (R207; entry 6). -/
def State.refuse (s : State) (r : CommandRefusal) : State :=
  { s with
    reply   := none
    refused := some r }

/-- The host has made its next move (log entry 3). -/
def State.withMoves (s : State) (l : List HostMove) : State := { s with hostMoves := l }

/-- The reset event (R230, R231): every register at its reset value, both buffers unspecified, the
instance's constants the same; the host's own record stays (log entry 16). -/
def State.resetEvent (s : State) : State :=
  { State.resetWith s.params with
    hostMoves := s.hostMoves
    reply     := s.reply
    refused   := s.refused
    draws     := s.draws }

/-! ## Block operations -/

/-- What the block processor yields for a group (R181): cells to emit, or the 0-based position in the
group of the lowest invalid character (R148). -/
inductive GroupResult where
  | emit (out : List Byte)
  | invalid (pos : Nat)
deriving DecidableEq, Repr

/-- The end of a step for a group whose result is known: R180 on cells to emit, R204 on an invalid
character. A write at or above OCAP faults; no reachable state makes one (entry 10). -/
def State.finish (s : State) (cnt : Nat) : GroupResult → Host.Outcome State Fault Refusal
  | .emit out =>
    if s.wp + out.length ≤ s.params.ocap then .next (s.advance cnt out) else .fault .obufOutOfRange
  | .invalid pos => .next (s.raiseInvalidCharacter (s.rp + pos))

/-- One block operation of mode `m` on a group of `cnt` cells (R180, R181): fetch the group, apply the
pure operation, finish. -/
def blockOperation (m : Mode) (cnt : Nat) (op : Params → List Byte → GroupResult) (s : State) :
    Host.Outcome State Fault Refusal :=
  if s.Selects m cnt then
    if s.rp + cnt ≤ s.params.icap then
      (s.withDraws (fetchCells s.ibuf s.draws s.rp cnt).2).finish cnt
        (op s.params (fetchCells s.ibuf s.draws s.rp cnt).1)
    else .fault .ibufOutOfRange
  else .refused .notSelected

/-- The halting step of mode `m` (R182). -/
def haltOperation (m : Mode) (s : State) : Host.Outcome State Fault Refusal :=
  if s.Selects m 0 then .next s.halt else .refused .notSelected

/-! ## Host registers and buffers -/

/-- `HREG[n]` as RREG returns it, zero-extended to LEN_W bits (R26, R172). CONFIG has 8 bits: where
LEN_W is below 8 the bits at and above LEN_W are not returned (log entry 8). -/
def State.hreg (s : State) : Nat → Option Nat
  | 0 => some 0
  | 1 => some s.status.code.toNat
  | 2 => some s.mode.bit.toNat
  | 3 => some s.ilen
  | 4 => some s.wp
  | 5 => some s.errIdx
  | 6 => some ((configBits s.params).toNat % 2 ^ s.params.lenW)
  | 7 => some s.cause.toNat
  | _ => none

/-- The launch premise of R178. -/
abbrev State.LaunchPremise (s : State) : Prop :=
  s.ilen ≤ s.params.icap ∧ outMax s.mode s.ilen ≤ s.params.ocap

/-- START (R177, R178): ignored while BUSY, accepted when the premise holds, else ignored by the
hardware and marked by the model. -/
def State.start (s : State) : State :=
  if s.status = .busy then s.answer none
  else if s.LaunchPremise then s.launch.answer none
  else s.refuse .launchExceedsCapacity

/-- A register write that is ignored while BUSY (R186). -/
def State.unlessBusy (s t : State) : State :=
  if s.status = .busy then s.answer none else t.answer none

/-- The write of host register `n` (R173). -/
def State.writeRegister (s : State) (n v : Nat) : State :=
  match n with
  | 0 => if v % 2 = 1 then s.start else s.answer none
  | 1 => s.answer none
  | 2 => s.unlessBusy (s.setMode (Mode.ofValue v))
  | 3 => s.unlessBusy (s.setIlen v)
  | 4 => s.answer none
  | 5 => s.answer none
  | 6 => s.answer none
  | 7 => s.answer none
  | _ => s.refuse .reservedRegister

/-- The number of cells of a buffer (R60). -/
def State.capacity (s : State) : BufSel → Nat
  | .ibuf => s.params.icap
  | .obuf => s.params.ocap

/-- The value of a cell for the host where R174 specifies one: not while BUSY, of IBUF only a cell
written since reset, of OBUF only below OLEN. -/
def State.specifiedCell (s : State) (sel : BufSel) (idx : Nat) : Option Byte :=
  if s.status = .busy then none
  else
    match sel with
    | .ibuf => s.ibuf.read idx
    | .obuf => if idx < s.wp then s.obuf.read idx else none

/-- The read of a buffer cell by the host (R174): an unspecified cell returns a free value. -/
def State.readBuffer (s : State) (sel : BufSel) (idx : Nat) : State :=
  if idx < s.capacity sel then
    match s.specifiedCell sel idx with
    | some v => s.answer (some (.cell v))
    | none   => (s.withDraws (s.draws + 1)).answer (some (.cell (Config.freeByte s.draws)))
  else s.refuse .indexOutOfRange

/-- The write of an IBUF cell by the host (R175). -/
def State.writeBuffer (s : State) (idx : Nat) (v : Byte) : State :=
  if idx < s.params.icap then s.unlessBusy (s.storeInput idx v) else s.refuse .indexOutOfRange

end Sys2Proof.Machine
end

