-- ==== Sys2Proof/Machine/Decoder.lean ====
section
/-! DEFINITION. The decoder block operations DEC4, DEC3, DEC2, DEC1 (41_decoder.md R141 to R145, R148). -/

namespace Sys2Proof.Machine

/-- The effective length of a group (R145): its length, or in TRUNCATE the characters before its first
Padding Marker. -/
def effLen (p : Params) (grp : List Byte) : Nat :=
  match p.padMode with
  | .passthrough => grp.length
  | .truncate    => min grp.length (grp.findIdx isPad)

/-- The STRICT check (R148): the 0-based position of the lowest invalid character of the group, under
STRICT only. -/
def strictOffender (p : Params) (grp : List Byte) : Option Nat :=
  match p.invalidPolicy with
  | .permissive => none
  | .strict     => grp.findIdx? isInvalid

/-- Check, then emit the first `k = Tail(eff)` of the reconstructed bytes (R140, R145, R148). -/
def checkedEmit (p : Params) (grp bytes : List Byte) : GroupResult :=
  match strictOffender p grp with
  | some i => .invalid i
  | none   => .emit (bytes.take (tail (effLen p grp)))

/-- DEC4 on a fetched group (R141); the sequencer fetches four cells, never another number. -/
def dec4Group (p : Params) : List Byte → GroupResult
  | [c1, c2, c3, c4] =>
    checkedEmit p [c1, c2, c3, c4]
      [byte0 (rev p.revDefault c1) (rev p.revDefault c2),
       byte1 (rev p.revDefault c2) (rev p.revDefault c3),
       byte2 (rev p.revDefault c3) (rev p.revDefault c4)]
  | _ => .emit []

/-- DEC3 on a fetched group of three characters (R142). -/
def dec3Group (p : Params) : List Byte → GroupResult
  | [c1, c2, c3] =>
    checkedEmit p [c1, c2, c3]
      [byte0 (rev p.revDefault c1) (rev p.revDefault c2),
       byte1 (rev p.revDefault c2) (rev p.revDefault c3)]
  | _ => .emit []

/-- DEC2 on a fetched group of two characters (R143). -/
def dec2Group (p : Params) : List Byte → GroupResult
  | [c1, c2] => checkedEmit p [c1, c2] [byte0 (rev p.revDefault c1) (rev p.revDefault c2)]
  | _ => .emit []

/-- DEC1 on a fetched group of one character: checked, nothing emitted (R144). -/
def dec1Group (p : Params) : List Byte → GroupResult
  | [c1] => checkedEmit p [c1] []
  | _ => .emit []

/-- DEC4 (R141). -/
def execDec4 (s : State) : Host.Outcome State Fault Refusal := blockOperation .dec 4 dec4Group s

/-- DEC3 (R142). -/
def execDec3 (s : State) : Host.Outcome State Fault Refusal := blockOperation .dec 3 dec3Group s

/-- DEC2 (R143). -/
def execDec2 (s : State) : Host.Outcome State Fault Refusal := blockOperation .dec 2 dec2Group s

/-- DEC1 (R144). -/
def execDec1 (s : State) : Host.Outcome State Fault Refusal := blockOperation .dec 1 dec1Group s

end Sys2Proof.Machine
end

