-- ==== Sys2Proof/Machine/Encoder.lean ====
section
/-! DEFINITION. The encoder block operations ENC3, ENC2, ENC1 (40_encoder.md R121 to R123). -/

namespace Sys2Proof.Machine

/-- `ENC3out`: the four alphabet characters of a full group (R121). -/
def enc3Out (b0 b1 b2 : Byte) : List Byte :=
  [alpha (field1 b0), alpha (field2 b0 b1), alpha (field3 b1 b2), alpha (field4 b2)]

/-- `ENC2out`: three alphabet characters and one Padding Marker (R122). -/
def enc2Out (b0 b1 : Byte) : List Byte :=
  [alpha (field1 b0), alpha (field2 b0 b1), alpha (field3Final b1), padMarker]

/-- `ENC1out`: two alphabet characters and two Padding Markers (R123). -/
def enc1Out (b0 : Byte) : List Byte :=
  [alpha (field1 b0), alpha (field2Final b0), padMarker, padMarker]

/-- ENC3 on a fetched group; the sequencer fetches three cells, never another number. -/
def enc3Group (_ : Params) : List Byte → GroupResult
  | [b0, b1, b2] => .emit (enc3Out b0 b1 b2)
  | _ => .emit []

/-- ENC2 on a fetched group of two cells. -/
def enc2Group (_ : Params) : List Byte → GroupResult
  | [b0, b1] => .emit (enc2Out b0 b1)
  | _ => .emit []

/-- ENC1 on a fetched group of one cell. -/
def enc1Group (_ : Params) : List Byte → GroupResult
  | [b0] => .emit (enc1Out b0)
  | _ => .emit []

/-- ENC3 (R121). -/
def execEnc3 (s : State) : Host.Outcome State Fault Refusal := blockOperation .enc 3 enc3Group s

/-- ENC2 (R122). -/
def execEnc2 (s : State) : Host.Outcome State Fault Refusal := blockOperation .enc 2 enc2Group s

/-- ENC1 (R123). -/
def execEnc1 (s : State) : Host.Outcome State Fault Refusal := blockOperation .enc 1 enc1Group s

end Sys2Proof.Machine
end

