-- ==== Sys2Proof/Machine/HostPort.lean ====
section
/-! DEFINITION. The four host commands RREG, WREG, RBUF, WBUF (42_sequencer_and_host.md R172 to R175). -/

namespace Sys2Proof.Machine

/-- RREG n (R172). -/
def execRreg (n : Nat) (s : State) : Host.Outcome State Fault Refusal :=
  match s.hreg n with
  | some v => .next (s.answer (some (.reg v)))
  | none   => .next (s.refuse .reservedRegister)

/-- WREG n, val (R173). -/
def execWreg (n val : Nat) (s : State) : Host.Outcome State Fault Refusal :=
  .next (s.writeRegister n val)

/-- RBUF sel, idx (R174). -/
def execRbuf (sel : BufSel) (idx : Nat) (s : State) : Host.Outcome State Fault Refusal :=
  .next (s.readBuffer sel idx)

/-- WBUF idx, val (R175). -/
def execWbuf (idx : Nat) (val : Byte) (s : State) : Host.Outcome State Fault Refusal :=
  .next (s.writeBuffer idx val)

end Sys2Proof.Machine
end

