-- ==== Sys2Proof/Machine/Sequencer.lean ====
section
/-! DEFINITION. The sequencer: the block descriptor it forms (30_encoding.md R96), the halting steps
EHALT and DHALT (42_sequencer_and_host.md R182), whose turn it is (R170, R181), and what the host makes of a
value it has read (30_encoding.md R103). -/

namespace Sys2Proof.Machine

/-- `BD = cat(MODE, cnt)`, `cnt` in 3 bits (R96). -/
def State.descriptor (s : State) : BitVec 4 := s.mode.bit ++ BitVec.ofNat 3 s.groupCount

/-- EHALT (R182). -/
def execEhalt (s : State) : Host.Outcome State Fault Refusal := haltOperation .enc s

/-- DHALT (R182). -/
def execDhalt (s : State) : Host.Outcome State Fault Refusal := haltOperation .dec s

/-- The host issues one command. -/
def issue (i : Instr) : List HostMove :=
  match encode i with
  | .hc r => [.issue r]
  | .bd _ => []

/-- The RBUF commands that read `n` cells of OBUF from index `a` on (R103). -/
def readCells (a : Nat) : Nat → List HostMove
  | 0 => []
  | n + 1 => issue (.rbuf .obuf a) ++ readCells (a + 1) n

/-- What the host does once a register read has returned (R103). -/
inductive Reaction where
  /-- WAIT: read STATUS again while the value is 1. -/
  | repeatWhileOne
  /-- Read as many cells of OBUF as the value says. -/
  | readThatMany
deriving DecidableEq, Repr

/-- The moves of the host once a register read has returned, which is what `reply` holds (R103). Between
two reads of STATUS the host makes no move for one step, so that the block steps (entry 18). -/
def State.react (s : State) : Reaction → State
  | .repeatWhileOne =>
    if s.reply = some (.reg 1) then s.withMoves (.wait :: .pollStatus :: s.hostMoves) else s
  | .readThatMany =>
    match s.reply with
    | some (.reg n)  => s.withMoves (readCells 0 n ++ s.hostMoves)
    | some (.cell _) => s
    | none           => s

/-- The host's reaction follows a command that completed. -/
def thenReact (a : Reaction) : Host.Outcome State Fault Refusal → Host.Outcome State Fault Refusal
  | .next t    => .next (t.react a)
  | .fault r   => .fault r
  | .refused r => .refused r

/-- What the next step is about: a code to decode and run, a command whose reply the host acts on, the
reset event, or nothing. -/
inductive Turn where
  | run (c : Code) (s : State)
  | query (c : Code) (a : Reaction) (s : State)
  | reset (s : State)
  | idle (s : State)
deriving DecidableEq, Repr

/-- The block's turn: its step is enabled exactly when STATUS = BUSY, and the descriptor selects it
(R181). In IDLE, DONE and ERROR no step is enabled (R216). -/
def State.blockTurn (s : State) : Turn :=
  if s.status = .busy then .run (.bd s.descriptor) s else .idle s

/-- Whose turn it is: the host's, while it has a move to make, else the block's (log entry 3). -/
def State.turn (s : State) : Turn :=
  match s.hostMoves with
  | [] => s.blockTurn
  | .wait :: rest => (s.withMoves rest).blockTurn
  | .reset :: rest => .reset (s.withMoves rest)
  | .issue r :: rest => .run (.hc r) (s.withMoves rest)
  | .pollStatus :: rest => .query (encode (.rreg 1)) .repeatWhileOne (s.withMoves rest)
  | .readOutput :: rest => .query (encode (.rreg 4)) .readThatMany (s.withMoves rest)

/-- The state in which the next step runs the code `c` and nothing else: a host command stands first
among the host's moves; for a descriptor the host waits, a run is in progress, MODE is the descriptor's
bit 3 and `cnt` cells of input are left (log entries 14, 15). -/
def State.withCode (s : State) : Code → State
  | .hc r => s.withMoves (.issue r :: s.hostMoves)
  | .bd b =>
    { s with
      hostMoves := .wait :: s.hostMoves
      status    := .busy
      mode      := Mode.ofValue (b.toNat / 8)
      ilen      := s.rp + b.toNat % 8 }

end Sys2Proof.Machine
end

