-- ==== Sys2Proof/Machine/Dispatch.lean ====
section
/-! DEFINITION. One arm per instruction. -/

namespace Sys2Proof.Machine

def exec (i : Instr) (s : State) : Host.Outcome State Fault Refusal :=
  match i with
  | .ehalt => Sys2Proof.Machine.execEhalt s
  | .enc1 => Sys2Proof.Machine.execEnc1 s
  | .enc2 => Sys2Proof.Machine.execEnc2 s
  | .enc3 => Sys2Proof.Machine.execEnc3 s
  | .dhalt => Sys2Proof.Machine.execDhalt s
  | .dec1 => Sys2Proof.Machine.execDec1 s
  | .dec2 => Sys2Proof.Machine.execDec2 s
  | .dec3 => Sys2Proof.Machine.execDec3 s
  | .dec4 => Sys2Proof.Machine.execDec4 s
  | .rreg n => Sys2Proof.Machine.execRreg n s
  | .wreg n val => Sys2Proof.Machine.execWreg n val s
  | .rbuf sel idx => Sys2Proof.Machine.execRbuf sel idx s
  | .wbuf idx val => Sys2Proof.Machine.execWbuf idx val s

end Sys2Proof.Machine
end

