-- ==== Sys2Proof/Machine/Step.lean ====
section
/-! DEFINITION. One step of the machine: a host move or a block step (42_sequencer_and_host.md R170,
R181), with its three outcomes. -/

namespace Sys2Proof.Machine

/-- Decode a code and run the instruction. -/
def runCode (c : Code) (s : State) : Host.Outcome State Fault Refusal :=
  match decode c with
  | .error e => .refused (.undecodable e)
  | .ok i => if i.wf s.params.lenW then exec i s else .refused .operandTooWide

/-- One step. With no step enabled the state is kept (R216; log entry 4). -/
def step (s : State) : Host.Outcome State Fault Refusal :=
  match s.turn with
  | .run c t => runCode c t
  | .query c a t => thenReact a (runCode c t)
  | .reset t => .next t.resetEvent
  | .idle t  => .next t

/-- `s` with a table row's bits placed where the next step finds its instruction. -/
def State.withFetchWord (s : State) (nbits w : Nat) : State :=
  match tableCode nbits w with
  | some c => s.withCode c
  | none   => s

end Sys2Proof.Machine
end

