-- ==== Sys2Proof/Machine/Pseudo.lean ====
section
/-! DEFINITION. The pseudo-instructions of 30_encoding.md R103 as the host moves they stand for. The
text form of a host program (names, numbers, comments) is not modelled (log entry 18). -/

namespace Sys2Proof.Machine

/-- START = `WREG CTRL, 1` (R103). -/
def pseudoStart : List HostMove := issue (.wreg 0 1)

/-- WAIT: one move, which repeats itself while `RREG STATUS` returns 1 (R103). -/
def pseudoWait : List HostMove := [.pollStatus]

/-- The WBUF commands that load a buffer from index `a` on (R103). -/
def loadCells (a : Nat) : List Byte → List HostMove
  | [] => []
  | x :: xs => issue (.wbuf a x) ++ loadCells (a + 1) xs

/-- ENCODE [..] (`m` = ENC) and DECODE [..] (`m` = DEC) up to START: load the input, write MODE and
ILEN, start (R103). -/
def callMoves (m : Mode) (xs : List Byte) : List HostMove :=
  loadCells 0 xs ++ issue (.wreg 2 m.bit.toNat) ++ issue (.wreg 3 xs.length) ++ pseudoStart

/-- The whole call: load, start, WAIT, `RREG OLEN`, and as many RBUF as that read returned (R103). -/
def pseudoCall (m : Mode) (xs : List Byte) : List HostMove :=
  callMoves m xs ++ pseudoWait ++ [.readOutput]

end Sys2Proof.Machine
end

