-- ==== Sys2Proof/Machine/Codec.lean ====
section
/-! DEFINITION. The whole-buffer functions a run computes, `encode` (40_encoder.md R130) and `decode`
(41_decoder.md R150), and the predicate `WellFormed` (00_scope.md R16, R157). -/

namespace Sys2Proof.Machine

/-- `encode(B)` of R130. -/
def encodeBytes : List Byte → List Byte
  | [] => []
  | [b0] => enc1Out b0
  | [b0, b1] => enc2Out b0 b1
  | b0 :: b1 :: b2 :: t => enc3Out b0 b1 b2 ++ encodeBytes t

/-- The result of `decode` (R150). -/
inductive DecodeResult where
  | ok (bytes : List Byte)
  | err (idx : Nat) (bytes : List Byte)
deriving DecidableEq, Repr

/-- `go(r, out)` of R150 on the rest of the input from index `r`. -/
def decodeGo (p : Params) (r : Nat) (out : List Byte) : List Byte → DecodeResult
  | [] => .ok out
  | [c1] =>
    match dec1Group p [c1] with
    | .emit bs => .ok (out ++ bs)
    | .invalid i => .err (r + i) out
  | [c1, c2] =>
    match dec2Group p [c1, c2] with
    | .emit bs => .ok (out ++ bs)
    | .invalid i => .err (r + i) out
  | [c1, c2, c3] =>
    match dec3Group p [c1, c2, c3] with
    | .emit bs => .ok (out ++ bs)
    | .invalid i => .err (r + i) out
  | c1 :: c2 :: c3 :: c4 :: t =>
    match dec4Group p [c1, c2, c3, c4] with
    | .emit bs => decodeGo p (r + 4) (out ++ bs) t
    | .invalid i => .err (r + i) out

/-- `decode(S)` of R150. -/
def decodeChars (p : Params) (str : List Byte) : DecodeResult := decodeGo p 0 [] str

/-- The bytes of a result: all of them for `Ok`, those of the groups before the faulting one for `Err`. -/
def DecodeResult.bytes : DecodeResult → List Byte
  | .ok bs => bs
  | .err _ bs => bs

/-- The characters before the Padding Markers that end a text. -/
def stripPads (str : List Byte) : List Byte := (str.reverse.dropWhile isPad).reverse

/-- The zero-bit condition of R157 for a text with `pads` trailing markers whose other characters are
`body`: one marker, the character before it has `REV[c][1:0] = 0`; two markers, `REV[c][3:0] = 0`. -/
def zeroTailBits (pads : Nat) (body : List Byte) : Bool :=
  match pads, body.getLast? with
  | 0, _ => true
  | 1, some c => decide ((rev 0#6 c).extractLsb' 0 2 = 0#2)
  | 2, some c => decide ((rev 0#6 c).extractLsb' 0 4 = 0#4)
  | _, _ => false

/-- `WellFormed(S)` of R16 and R157: a length that is a multiple of 4, alphabet characters but for at
most two Padding Markers at the end, and the zero-bit condition. -/
def wellFormedText (str : List Byte) : Bool :=
  decide (str.length % 4 = 0) && (stripPads str).all isAlpha &&
  zeroTailBits (str.length - (stripPads str).length) (stripPads str)

end Sys2Proof.Machine
end

