-- ==== Sys2Proof/Safety.lean ====
section
/-! DEFINITION. What claims are stated in: the invariant of a run (10_state.md R24, R25; 42_sequencer_and_host.md
R178), the mark of a refused command (60_exceptions.md R207), and what it means that the buffers hold a
sequence. -/

namespace Sys2Proof.Machine

/-- The invariant of the machine: the sizes fit, the buffers are canonical and inside their capacity,
every output cell below WP has been written, and each STATUS has the registers its rules give it. -/
structure State.Inv (s : State) : Prop where
  /-- The constraints of R9. -/
  params : s.params.Valid
  /-- ILEN is a LEN_W-bit value (R22); a value above ICAP may be stored (R173). -/
  ilen : s.ilen < 2 ^ s.params.lenW
  /-- RP is at or below ICAP and WP at or below OCAP, so neither wraps (R12, R24, R25). -/
  pointers : s.rp ≤ s.params.icap ∧ s.wp ≤ s.params.ocap
  /-- ERRIDX is an index of IBUF, or 0 (R28). -/
  errIdx : s.errIdx ≤ s.params.icap
  /-- IBUF in canonical form, cells below ICAP (R36). -/
  ibuf : s.ibuf.Canonical ∧ ∀ x ∈ s.ibuf, x.1 < s.params.icap
  /-- OBUF in canonical form, cells below OCAP (R37). -/
  obuf : s.obuf.Canonical ∧ ∀ x ∈ s.obuf, x.1 < s.params.ocap
  /-- Every cell of the valid output has been written (R65). -/
  written : ∀ a, a < s.wp → s.obuf.read a ≠ none
  /-- IDLE is "no run yet" (R23, R40). -/
  idle : s.status = .idle → s.rp = 0 ∧ s.wp = 0
  /-- While BUSY the launch premise holds (R178), RP is the start of a group or the end (R24), and WP is
  at most OutMax(MODE, RP) (R25), in ENC mode exactly that (R63, R121 to R123). -/
  busy : s.status = .busy → s.LaunchPremise ∧ s.rp ≤ s.ilen ∧
    (s.rp % groupWidth s.mode = 0 ∨ s.rp = s.ilen) ∧ s.wp ≤ outMax s.mode s.rp ∧
    (s.mode = .enc → s.wp = encLen s.rp)
  /-- ERRIDX is 0 but after an exception (R28). -/
  noError : s.status ≠ .error → s.errIdx = 0
  /-- ERROR is reached only under STRICT, and ERRIDX lies in the group at RP (R23, R204). -/
  error : s.status = .error → s.params.invalidPolicy = .strict ∧ s.rp % 4 = 0 ∧
    s.rp ≤ s.errIdx ∧ s.errIdx < s.rp + 4

/-- No command has been refused: "A refusal marks the model's state so that no claim passes through it"
(R207). The mark stays once it is set, so an unmarked state ends an unmarked run. -/
abbrev State.Unmarked (s : State) : Prop := s.refused = none

/-- `t` has the block's registers, buffers and constants of `s`; the host's own record may differ. -/
abbrev State.SameBlock (s t : State) : Prop :=
  t.params = s.params ∧ t.mode = s.mode ∧ t.ilen = s.ilen ∧ t.status = s.status ∧ t.rp = s.rp ∧
  t.wp = s.wp ∧ t.errIdx = s.errIdx ∧ t.ibuf = s.ibuf ∧ t.obuf = s.obuf

/-- The group the block reads at RP: `MemRead(RP, n)` (R64), free values in unwritten cells. -/
def State.groupAt (s : State) (n : Nat) : List Byte := (fetchCells s.ibuf s.draws s.rp n).1

/-- A buffer holds the sequence `xs` from index `a` on, every cell written. -/
def Memory.Holds (m : Memory) (a : Nat) (xs : List Byte) : Prop :=
  ∀ i v, xs[i]? = some v → m.read (a + i) = some v

/-- `IBUF[0..ILEN) = xs` (R184), as the host's duty R240 asks: every cell of the input written. -/
def State.InputIs (s : State) (xs : List Byte) : Prop := s.ilen = xs.length ∧ s.ibuf.Holds 0 xs

/-- `OBUF[0..OLEN) = ys` (R184). -/
def State.OutputIs (s : State) (ys : List Byte) : Prop := s.wp = ys.length ∧ s.obuf.Holds 0 ys

/-- A state right after an accepted START (R177), the launch premise holding (R178). -/
abbrev State.Launched (s : State) : Prop :=
  s.status = .busy ∧ s.rp = 0 ∧ s.wp = 0 ∧ s.errIdx = 0 ∧ s.LaunchPremise

/-- The bytes the sextets of a group make (R95), as many as the group has (R141 to R144). -/
def reconstruct (d : Sextet) (grp : List Byte) : List Byte :=
  match grp.map (rev d) with
  | [s1, s2] => [byte0 s1 s2]
  | [s1, s2, s3] => [byte0 s1 s2, byte1 s2 s3]
  | [s1, s2, s3, s4] => [byte0 s1 s2, byte1 s2 s3, byte2 s3 s4]
  | _ => []

/-- What a run on the input `xs` that began in `s` leaves in `t` (R184): the output of `encode` or
`decode`, the end status, and the registers and buffers a run never changes. -/
def State.RunResult (s : State) (xs : List Byte) (t : State) : Prop :=
  t.params = s.params ∧ t.mode = s.mode ∧ t.ilen = s.ilen ∧ t.ibuf = s.ibuf ∧
  (∀ a, t.wp ≤ a → t.obuf.read a = s.obuf.read a) ∧
  match s.mode with
  | .enc => t.status = .done ∧ t.errIdx = 0 ∧ t.rp = xs.length ∧ t.OutputIs (encodeBytes xs)
  | .dec =>
    match decodeChars s.params xs with
    | .ok ys => t.status = .done ∧ t.errIdx = 0 ∧ t.rp = xs.length ∧ t.OutputIs ys
    | .err i ys => t.status = .error ∧ t.errIdx = i ∧ t.rp = 4 * (i / 4) ∧ t.OutputIs ys

/-- The number of block steps of a run on `xs` that begins in `s` (R183). -/
def State.runLength (s : State) (xs : List Byte) : Nat :=
  match s.mode with
  | .enc => (xs.length + 2) / 3 + 1
  | .dec =>
    match decodeChars s.params xs with
    | .ok _ => (xs.length + 3) / 4 + 1
    | .err i _ => i / 4 + 1

/-- How many steps a move of the host takes of its own, at most, while a run is in progress: a command one;
the reads of the output one and then one for each cell, of which there are at most OCAP. A wait is the
block's step, and a poll while BUSY is followed by one (R103). -/
def HostMove.cost (ocap : Nat) : HostMove → Nat
  | .issue _    => 1
  | .reset      => 1
  | .wait       => 0
  | .pollStatus => 0
  | .readOutput => 1 + ocap

/-- The instruction is one of the nine block operations (R96). -/
def blockOperations : List Instr := [.ehalt, .enc1, .enc2, .enc3, .dhalt, .dec1, .dec2, .dec3, .dec4]

/-- The instruction is a host command (R171). -/
def isHostCommand : Instr → Bool
  | .ehalt => false
  | .enc1 => false
  | .enc2 => false
  | .enc3 => false
  | .dhalt => false
  | .dec1 => false
  | .dec2 => false
  | .dec3 => false
  | .dec4 => false
  | .rreg _ => true
  | .wreg _ _ => true
  | .rbuf _ _ => true
  | .wbuf _ _ => true

end Sys2Proof.Machine
end

