-- ==== Sys2Proof/Certificates/Slice0/Obligations.lean ====
section
/-! DEFINITION. The statements about the model, from the spec's rules. Each docstring names the rule or
the section it formalises, and the log entry where a clause rests on the model's own choice. `∃ d` and
`∃ r` leave the model's own fields `draws` and `reply` open where the rule says nothing of them. -/

open Sys2Proof Sys2Proof.Machine

/-! ## Codes -/

/-- R96: the descriptor is `cat(MODE, cnt)` and selects the operation by the table of nine rows. -/
def Obligations.DescriptorSelectsOperation : Prop :=
  (∀ s : State, s.descriptor.toNat =
    8 * (if s.mode = .dec then 1 else 0) +
      min (if s.mode = .enc then 3 else 4) (s.ilen - s.rp)) ∧
  decode (.bd 0b0000#4) = .ok .ehalt ∧ decode (.bd 0b0001#4) = .ok .enc1 ∧
  decode (.bd 0b0010#4) = .ok .enc2 ∧ decode (.bd 0b0011#4) = .ok .enc3 ∧
  decode (.bd 0b1000#4) = .ok .dhalt ∧ decode (.bd 0b1001#4) = .ok .dec1 ∧
  decode (.bd 0b1010#4) = .ok .dec2 ∧ decode (.bd 0b1011#4) = .ok .dec3 ∧
  decode (.bd 0b1100#4) = .ok .dec4

/-- 30_encoding.md section 6 and the records of program P1: the op codes of the four host commands. -/
def Obligations.HostRecordsDecode : Prop :=
  decode (.hc { op := 0b00#2, sel := 0#1, num := 4, val := 0 }) = .ok (.rreg 4) ∧
  decode (.hc { op := 0b01#2, sel := 0#1, num := 0, val := 1 }) = .ok (.wreg 0 1) ∧
  decode (.hc { op := 0b10#2, sel := 0#1, num := 3, val := 0 }) = .ok (.rbuf .ibuf 3) ∧
  decode (.hc { op := 0b10#2, sel := 1#1, num := 3, val := 0 }) = .ok (.rbuf .obuf 3) ∧
  decode (.hc { op := 0b11#2, sel := 0#1, num := 0, val := 0x4D }) = .ok (.wbuf 0 0x4D#8)

/-- Decoding an encoded instruction gives it back, and a code that decodes is, but for the fields that are
no operand, the code of its instruction (30_encoding.md sections 4 and 6; entry 12). -/
def Obligations.DecodeEncodeAgree : Prop :=
  (∀ i : Instr, decode (encode i) = .ok i) ∧
  (∀ (c : Code) (i : Instr), decode c = .ok i → encode i = c.canonical)

/-- 30_encoding.md section 5: the descriptor values 4 to 7 and 13 to 15 decode to a refusal, never to an
operation. -/
def Obligations.ReservedDescriptorsRefused : Prop :=
  ∀ b : BitVec 4, (4 ≤ b.toNat ∧ b.toNat ≤ 7) ∨ 13 ≤ b.toNat →
    decode (.bd b) = .error (.reservedDescriptor b)

/-- "since no reachable state forms them": in every state the sequencer's descriptor decodes to a
well-formed block operation (30_encoding.md section 5). -/
def Obligations.DescriptorNeverReserved : Prop :=
  ∀ s : State, ∃ i ∈ blockOperations, decode (.bd s.descriptor) = .ok i ∧ i.wf s.params.lenW = true

/-! ## The step -/

/-- A step runs the decoded instruction: the sequencer's operation when the host makes no move and a run
is in progress (R181), the host's command when it issues one; the host's list moves on (entry 3). A code
that is no instruction is refused by name (entry 12). -/
def Obligations.StepRunsDecoded : Prop :=
  (∀ (s : State) (i : Instr), s.hostMoves = [] → s.status = .busy →
    decode (.bd s.descriptor) = .ok i → step s = exec i s) ∧
  (∀ (s : State) (l : List HostMove) (i : Instr), s.hostMoves = .wait :: l → s.status = .busy →
    decode (.bd s.descriptor) = .ok i → step s = exec i { s with hostMoves := l }) ∧
  (∀ (s : State) (l : List HostMove) (r : HostRecord) (i : Instr), s.hostMoves = .issue r :: l →
    decode (.hc r) = .ok i → i.wf s.params.lenW = true → step s = exec i { s with hostMoves := l }) ∧
  (∀ (s : State) (l : List HostMove) (r : HostRecord) (e : DecodeError), s.hostMoves = .issue r :: l →
    decode (.hc r) = .error e → step s = .refused (.undecodable e))

/-- "in IDLE, DONE and ERROR the block simply has no enabled step, and all state is kept"
(60_exceptions.md section 4). That the model's step then answers the same state is entry 4. -/
def Obligations.IdleKeepsState : Prop :=
  ∀ s : State, s.status ≠ .busy →
    (s.hostMoves = [] → step s = .next s) ∧
    (∀ l, s.hostMoves = .wait :: l → step s = .next { s with hostMoves := l })

/-- R40: the registers after reset, and every buffer cell unspecified, for every instance; `State.reset`
is one of them (entry 2). -/
def Obligations.ResetValues : Prop :=
  (∀ p : Params,
    let s := State.resetWith p
    s.status = .idle ∧ s.mode = .enc ∧ s.ilen = 0 ∧ s.rp = 0 ∧ s.wp = 0 ∧ s.errIdx = 0 ∧
    s.cause = 0#2 ∧ s.params = p ∧ ∀ a, s.ibuf.read a = none ∧ s.obuf.read a = none) ∧
  ∃ p : Params, p.Valid ∧ State.reset = State.resetWith p

/-- R230: the reset event, in any state, puts every register at its reset value; the straps stay. Every
buffer cell is then unspecified (70_reset_and_hazards.md section 1). That reset is a host move is entry 3;
the statement says nothing of the model's own fields (entry 16). -/
def Obligations.ResetEventResets : Prop :=
  ∀ (s : State) (l : List HostMove), s.hostMoves = .reset :: l →
    ∃ t, step s = .next t ∧ t.status = .idle ∧ t.mode = .enc ∧ t.ilen = 0 ∧ t.rp = 0 ∧ t.wp = 0 ∧
      t.errIdx = 0 ∧ t.cause = 0#2 ∧ t.params = s.params ∧
      ∀ a, t.ibuf.read a = none ∧ t.obuf.read a = none

/-! ## The ROMs and character classes -/

/-- R30: every entry of ALPHA in closed form. -/
def Obligations.AlphaClosedForm : Prop :=
  ∀ i : Sextet, (alpha i).toNat =
    if i.toNat ≤ 25 then 0x41 + i.toNat
    else if i.toNat ≤ 51 then 0x61 + (i.toNat - 26)
    else if i.toNat ≤ 61 then 0x30 + (i.toNat - 52)
    else if i.toNat = 62 then 0x2B else 0x2F

/-- 10_state.md section 4: REV inverts ALPHA and is REV_DEFAULT elsewhere, with the closed form given
there. -/
def Obligations.RevInvertsAlpha : Prop :=
  (∀ (d i : Sextet), rev d (alpha i) = i) ∧
  (∀ (d : Sextet) (c : Byte), (∀ i, alpha i ≠ c) → rev d c = d) ∧
  (∀ (d : Sextet) (c : Byte), isAlpha c = true → alpha (rev d c) = c) ∧
  (∀ (d : Sextet) (c : Byte), (rev d c).toNat =
    if 0x41 ≤ c.toNat ∧ c.toNat ≤ 0x5A then c.toNat - 0x41
    else if 0x61 ≤ c.toNat ∧ c.toNat ≤ 0x7A then c.toNat - 0x61 + 26
    else if 0x30 ≤ c.toNat ∧ c.toNat ≤ 0x39 then c.toNat - 0x30 + 52
    else if c.toNat = 0x2B then 62 else if c.toNat = 0x2F then 63 else d.toNat)

/-- 10_state.md section 3 (properties (a) and (b) of ALPHA) and 00_scope.md section 5: the entries are
distinct, none is the Padding Marker, and the three classes of a code partition the 256 codes. -/
def Obligations.CharacterClasses : Prop :=
  (∀ i j : Sextet, alpha i = alpha j → i = j) ∧
  (∀ i : Sextet, alpha i ≠ 0x3D#8) ∧
  (∀ c : Byte, isAlpha c = true ↔ ∃ i : Sextet, alpha i = c) ∧
  (∀ c : Byte, isPad c = true ↔ c = 0x3D#8) ∧
  (∀ c : Byte, isInvalid c = true ↔ (isAlpha c = false ∧ c ≠ 0x3D#8))

/-! ## Slices -/

/-- The two columns of the table of R92 agree for every b0, b1, b2, and the fields of a final group are
those of the group with the missing bytes zero (30_encoding.md section 2). -/
def Obligations.FieldsAreSlicesOfG : Prop :=
  ∀ b0 b1 b2 : Byte,
    field1 b0 = (groupG b0 b1 b2).extractLsb' 18 6 ∧
    field2 b0 b1 = (groupG b0 b1 b2).extractLsb' 12 6 ∧
    field3 b1 b2 = (groupG b0 b1 b2).extractLsb' 6 6 ∧
    field4 b2 = (groupG b0 b1 b2).extractLsb' 0 6 ∧
    field2Final b0 = field2 b0 0#8 ∧ field3Final b1 = field3 b1 0#8

/-- The two columns of the table of R95 agree for every 6-bit s1 to s4 (30_encoding.md section 3). -/
def Obligations.BytesAreSlicesOfH : Prop :=
  ∀ s1 s2 s3 s4 : Sextet,
    byte0 s1 s2 = (groupH s1 s2 s3 s4).extractLsb' 16 8 ∧
    byte1 s2 s3 = (groupH s1 s2 s3 s4).extractLsb' 8 8 ∧
    byte2 s3 s4 = (groupH s1 s2 s3 s4).extractLsb' 0 8

/-! ## The encoder operations -/

/-- R121: ENC3. -/
def Obligations.Enc3Result : Prop :=
  ∀ (s : State) (b0 b1 b2 : Byte),
    s.status = .busy → s.mode = .enc → s.rp + 3 ≤ s.ilen → s.ilen ≤ s.params.icap →
    s.wp + 4 ≤ s.params.ocap → s.groupAt 3 = [b0, b1, b2] →
    ∃ d, exec .enc3 s = .next
      { s with
        obuf := s.obuf.writeCells s.wp
          [alpha ((b0 >>> 2).setWidth 6),
           alpha ((((b0 &&& 0x03#8) <<< 4) ||| (b1 >>> 4)).setWidth 6),
           alpha ((((b1 &&& 0x0F#8) <<< 2) ||| (b2 >>> 6)).setWidth 6),
           alpha ((b2 &&& 0x3F#8).setWidth 6)]
        rp := s.rp + 3
        wp := s.wp + 4
        draws := d }

/-- R122: ENC2. -/
def Obligations.Enc2Result : Prop :=
  ∀ (s : State) (b0 b1 : Byte),
    s.status = .busy → s.mode = .enc → s.rp + 2 = s.ilen → s.ilen ≤ s.params.icap →
    s.wp + 4 ≤ s.params.ocap → s.groupAt 2 = [b0, b1] →
    ∃ d, exec .enc2 s = .next
      { s with
        obuf := s.obuf.writeCells s.wp
          [alpha ((b0 >>> 2).setWidth 6),
           alpha ((((b0 &&& 0x03#8) <<< 4) ||| (b1 >>> 4)).setWidth 6),
           alpha (((b1 &&& 0x0F#8) <<< 2).setWidth 6),
           0x3D#8]
        rp := s.rp + 2
        wp := s.wp + 4
        draws := d }

/-- R123: ENC1. -/
def Obligations.Enc1Result : Prop :=
  ∀ (s : State) (b0 : Byte),
    s.status = .busy → s.mode = .enc → s.rp + 1 = s.ilen → s.ilen ≤ s.params.icap →
    s.wp + 4 ≤ s.params.ocap → s.groupAt 1 = [b0] →
    ∃ d, exec .enc1 s = .next
      { s with
        obuf := s.obuf.writeCells s.wp
          [alpha ((b0 >>> 2).setWidth 6), alpha (((b0 &&& 0x03#8) <<< 4).setWidth 6), 0x3D#8, 0x3D#8]
        rp := s.rp + 1
        wp := s.wp + 4
        draws := d }

/-- R182: the halting steps. -/
def Obligations.HaltResult : Prop :=
  ∀ s : State, s.status = .busy → s.rp = s.ilen →
    (s.mode = .enc → exec .ehalt s = .next { s with status := .done }) ∧
    (s.mode = .dec → exec .dhalt s = .next { s with status := .done })

/-- The frame of ENC1, ENC2, ENC3 and the halting steps: what they leave unchanged (40_encoder.md section
2; 42_sequencer_and_host.md section 3). A stored cell is one of the four from WP on; a halting step stores
none. -/
def Obligations.EncodeFrame : Prop :=
  (∀ (i : Instr) (s t : State), i ∈ [Instr.enc1, .enc2, .enc3] → exec i s = .next t →
    t.params = s.params ∧ t.mode = s.mode ∧ t.ilen = s.ilen ∧ t.status = s.status ∧
    t.errIdx = s.errIdx ∧ t.ibuf = s.ibuf ∧ t.hostMoves = s.hostMoves ∧ t.reply = s.reply ∧
    t.refused = s.refused ∧ t.wp = s.wp + 4 ∧
    ∀ a, a < s.wp ∨ s.wp + 4 ≤ a → t.obuf.read a = s.obuf.read a) ∧
  (∀ (i : Instr) (s t : State), i ∈ [Instr.ehalt, .dhalt] → exec i s = .next t →
    t = { s with status := t.status } ∧ t.status = .done)

/-! ## The decoder operations -/

/-- R141: DEC4. Under STRICT with an invalid character it raises; otherwise it emits the first `k` bytes. -/
def Obligations.Dec4Result : Prop :=
  ∀ (s : State) (c1 c2 c3 c4 : Byte),
    s.status = .busy → s.mode = .dec → s.rp + 4 ≤ s.ilen → s.ilen ≤ s.params.icap →
    s.groupAt 4 = [c1, c2, c3, c4] →
    let grp := [c1, c2, c3, c4]
    let s1 := (rev s.params.revDefault c1).setWidth 8
    let s2 := (rev s.params.revDefault c2).setWidth 8
    let s3 := (rev s.params.revDefault c3).setWidth 8
    let s4 := (rev s.params.revDefault c4).setWidth 8
    let k := tail (effLen s.params grp)
    (s.params.invalidPolicy = .strict ∧ grp.any isInvalid = true →
      ∃ d, exec .dec4 s =
        .next { s with status := .error, errIdx := s.rp + grp.findIdx isInvalid, draws := d }) ∧
    (¬ (s.params.invalidPolicy = .strict ∧ grp.any isInvalid = true) → s.wp + k ≤ s.params.ocap →
      ∃ d, exec .dec4 s = .next
        { s with
          obuf := s.obuf.writeCells s.wp
            (List.take k [(s1 <<< 2) ||| (s2 >>> 4), ((s2 &&& 0x0F#8) <<< 4) ||| (s3 >>> 2),
              ((s3 &&& 0x03#8) <<< 6) ||| s4])
          rp := s.rp + 4
          wp := s.wp + k
          draws := d })

/-- R142: DEC3. -/
def Obligations.Dec3Result : Prop :=
  ∀ (s : State) (c1 c2 c3 : Byte),
    s.status = .busy → s.mode = .dec → s.rp + 3 = s.ilen → s.ilen ≤ s.params.icap →
    s.groupAt 3 = [c1, c2, c3] →
    let grp := [c1, c2, c3]
    let s1 := (rev s.params.revDefault c1).setWidth 8
    let s2 := (rev s.params.revDefault c2).setWidth 8
    let s3 := (rev s.params.revDefault c3).setWidth 8
    let k := tail (effLen s.params grp)
    (s.params.invalidPolicy = .strict ∧ grp.any isInvalid = true →
      ∃ d, exec .dec3 s =
        .next { s with status := .error, errIdx := s.rp + grp.findIdx isInvalid, draws := d }) ∧
    (¬ (s.params.invalidPolicy = .strict ∧ grp.any isInvalid = true) → s.wp + k ≤ s.params.ocap →
      ∃ d, exec .dec3 s = .next
        { s with
          obuf := s.obuf.writeCells s.wp
            (List.take k [(s1 <<< 2) ||| (s2 >>> 4), ((s2 &&& 0x0F#8) <<< 4) ||| (s3 >>> 2)])
          rp := s.rp + 3
          wp := s.wp + k
          draws := d })

/-- R143: DEC2. -/
def Obligations.Dec2Result : Prop :=
  ∀ (s : State) (c1 c2 : Byte),
    s.status = .busy → s.mode = .dec → s.rp + 2 = s.ilen → s.ilen ≤ s.params.icap →
    s.groupAt 2 = [c1, c2] →
    let grp := [c1, c2]
    let s1 := (rev s.params.revDefault c1).setWidth 8
    let s2 := (rev s.params.revDefault c2).setWidth 8
    let k := tail (effLen s.params grp)
    (s.params.invalidPolicy = .strict ∧ grp.any isInvalid = true →
      ∃ d, exec .dec2 s =
        .next { s with status := .error, errIdx := s.rp + grp.findIdx isInvalid, draws := d }) ∧
    (¬ (s.params.invalidPolicy = .strict ∧ grp.any isInvalid = true) → s.wp + k ≤ s.params.ocap →
      ∃ d, exec .dec2 s = .next
        { s with
          obuf := s.obuf.writeCells s.wp (List.take k [(s1 <<< 2) ||| (s2 >>> 4)])
          rp := s.rp + 2
          wp := s.wp + k
          draws := d })

/-- R144: DEC1. -/
def Obligations.Dec1Result : Prop :=
  ∀ (s : State) (c1 : Byte),
    s.status = .busy → s.mode = .dec → s.rp + 1 = s.ilen → s.ilen ≤ s.params.icap →
    s.wp ≤ s.params.ocap → s.groupAt 1 = [c1] →
    (s.params.invalidPolicy = .strict ∧ isInvalid c1 = true →
      ∃ d, exec .dec1 s = .next { s with status := .error, errIdx := s.rp, draws := d }) ∧
    (¬ (s.params.invalidPolicy = .strict ∧ isInvalid c1 = true) →
      ∃ d, exec .dec1 s = .next { s with rp := s.rp + 1, draws := d })

/-- The effective length of a decode group in each pad mode, and `Tail`, the count of bytes for each
effective length (41_decoder.md section 1). That DEC1 to DEC4 emit `Tail` of it is in Dec1Result to
Dec4Result. -/
def Obligations.EmittedCount : Prop :=
  (∀ (p : Params) (grp : List Byte), p.padMode = .passthrough → effLen p grp = grp.length) ∧
  (∀ (p : Params) (grp : List Byte), p.padMode = .truncate → (∀ c ∈ grp, isPad c = false) →
    effLen p grp = grp.length) ∧
  (∀ (p : Params) (before after : List Byte), p.padMode = .truncate → (∀ c ∈ before, isPad c = false) →
    effLen p (before ++ 0x3D#8 :: after) = before.length) ∧
  tail 4 = 3 ∧ tail 3 = 2 ∧ tail 2 = 1 ∧ tail 1 = 0 ∧ tail 0 = 0

/-- R204: taking the exception, in each of the four decoder operations: STATUS and ERRIDX, and nothing
else. The index is that of the lowest invalid character of the group (R148, R206). -/
def Obligations.ExceptionEntry : Prop :=
  ∀ (i : Instr) (cnt : Nat) (s : State) (before after : List Byte) (c : Byte),
    (i, cnt) ∈ [(Instr.dec1, 1), (.dec2, 2), (.dec3, 3), (.dec4, 4)] →
    s.Selects .dec cnt → s.ilen ≤ s.params.icap → s.params.invalidPolicy = .strict →
    s.groupAt cnt = before ++ c :: after → (∀ x ∈ before, isInvalid x = false) → isInvalid c = true →
    ∃ t d, exec i s = .next t ∧ t.cause = 1#2 ∧
      t = { s with status := .error, errIdx := s.rp + before.length, draws := d }

/-- 60_exceptions.md section 1: only a decoder operation under STRICT can raise: a step that ends in ERROR
began there, or ran in DEC mode under STRICT. -/
def Obligations.ExceptionOnlyStrictDecode : Prop :=
  ∀ s t : State, step s = .next t → t.status = .error → s.status ≠ .error →
    s.status = .busy ∧ s.mode = .dec ∧ s.params.invalidPolicy = .strict

/-- The frame of DEC1 to DEC4 (41_decoder.md section 2): what they leave unchanged. They store `WP' - WP`
cells, at most three, at WP; on the exception they store none and keep both pointers. -/
def Obligations.DecodeFrame : Prop :=
  ∀ (i : Instr) (s t : State), i ∈ [Instr.dec1, .dec2, .dec3, .dec4] → exec i s = .next t →
    t.params = s.params ∧ t.mode = s.mode ∧ t.ilen = s.ilen ∧ t.ibuf = s.ibuf ∧
    t.hostMoves = s.hostMoves ∧ t.reply = s.reply ∧ t.refused = s.refused ∧
    s.wp ≤ t.wp ∧ t.wp ≤ s.wp + 3 ∧
    (∀ a, a < s.wp ∨ t.wp ≤ a → t.obuf.read a = s.obuf.read a) ∧
    ((t.status = s.status ∧ t.errIdx = s.errIdx) ∨
      (t.status = .error ∧ t.rp = s.rp ∧ t.wp = s.wp ∧ t.obuf = s.obuf))

/-- A block operation reads no cell at or above ILEN: two states that differ only there step alike
(20_memory.md section 4). -/
def Obligations.InputBeyondIlenIrrelevant : Prop :=
  ∀ (i : Instr) (s t : State) (m : Memory), i ∈ blockOperations →
    (∀ a, a < s.ilen → m.read a = s.ibuf.read a) → exec i s = .next t →
    exec i { s with ibuf := m } = .next { t with ibuf := m }

/-! ## The host commands -/

/-- RREG n (42_sequencer_and_host.md section 1; 10_state.md section 2): the value of each register 0 to 7
in every STATUS, no other change; a number above 7 is marked and returns nothing (entry 6). The reply field
is the model's (entry 5); CONFIG's bits at and above LEN_W are not returned (entry 8). -/
def Obligations.RregReturns : Prop :=
  ∀ s : State,
    let returns := fun n v => exec (.rreg n) s = .next { s with reply := some (.reg v) }
    returns 0 0 ∧
    returns 1 (match s.status with | .idle => 0 | .busy => 1 | .done => 2 | .error => 3) ∧
    returns 2 (match s.mode with | .enc => 0 | .dec => 1) ∧
    returns 3 s.ilen ∧ returns 4 s.wp ∧ returns 5 s.errIdx ∧
    returns 6 (((if s.params.padMode = .truncate then 1 else 0) +
      2 * (if s.params.invalidPolicy = .strict then 1 else 0) +
      4 * s.params.revDefault.toNat) % 2 ^ s.params.lenW) ∧
    returns 7 (if s.status = .error then 1 else 0) ∧
    ∀ n, 7 < n →
      exec (.rreg n) s = .next { s with reply := none, refused := some .reservedRegister }

/-- WREG n, val but for START (42_sequencer_and_host.md section 1): MODE and ILEN unless BUSY, CTRL with
bit 0 clear and the read-only registers ignored; a number above 7 is marked (entry 6). WREG returns nothing
(entry 5). -/
def Obligations.WregEffects : Prop :=
  ∀ (s : State) (v : Nat),
    (v % 2 = 0 → exec (.wreg 0 v) s = .next { s with reply := none }) ∧
    (s.status ≠ .busy → exec (.wreg 2 v) s =
      .next { s with mode := if v % 2 = 1 then .dec else .enc, reply := none }) ∧
    (s.status ≠ .busy → exec (.wreg 3 v) s = .next { s with ilen := v, reply := none }) ∧
    (s.status = .busy → ∀ n ∈ [2, 3], exec (.wreg n v) s = .next { s with reply := none }) ∧
    (∀ n ∈ [1, 4, 5, 6, 7], exec (.wreg n v) s = .next { s with reply := none }) ∧
    (∀ n, 7 < n →
      exec (.wreg n v) s = .next { s with reply := none, refused := some .reservedRegister })

/-- R177: START, ignored while BUSY, else accepted when the launch premise holds. -/
def Obligations.StartLaunches : Prop :=
  ∀ (s : State) (v : Nat), v % 2 = 1 →
    (s.status = .busy → ∃ r, exec (.wreg 0 v) s = .next { s with reply := r }) ∧
    (s.status ≠ .busy → s.ilen ≤ s.params.icap → outMax s.mode s.ilen ≤ s.params.ocap →
      ∃ r, exec (.wreg 0 v) s =
        .next { s with rp := 0, wp := 0, errIdx := 0, status := .busy, reply := r })

/-- A START whose premise fails is ignored, no register changes, and the model records the refusal
(42_sequencer_and_host.md section 2; entry 6); EncLen and DecLenMax as numbers. -/
def Obligations.StartBeyondCapacityRefused : Prop :=
  (∀ n, outMax .enc n = 4 * ((n + 2) / 3)) ∧
  (∀ n, outMax .dec n = 3 * (n / 4) + (if n % 4 = 3 then 2 else if n % 4 = 2 then 1 else 0)) ∧
  ∀ (s : State) (v : Nat), v % 2 = 1 → s.status ≠ .busy →
    (s.params.icap < s.ilen ∨ s.params.ocap < outMax s.mode s.ilen) →
    ∃ r, exec (.wreg 0 v) s =
      .next { s with reply := r, refused := some .launchExceedsCapacity }

/-- RBUF (42_sequencer_and_host.md section 1): the cell where its value is specified; elsewhere some 8-bit
value, the next free one (entry 7), and nothing of the block changes; an index at or above the capacity is
marked and returns nothing (entry 6), while BUSY too: that the index check comes before the BUSY rule is
the model's choice (entry 13). The reply field is the model's (entry 5). -/
def Obligations.RbufReturns : Prop :=
  ∀ (s : State) (idx : Nat),
    (∀ v, s.status ≠ .busy → idx < s.params.icap → s.ibuf.read idx = some v →
      exec (.rbuf .ibuf idx) s = .next { s with reply := some (.cell v) }) ∧
    (∀ v, s.status ≠ .busy → idx < s.params.ocap → idx < s.wp → s.obuf.read idx = some v →
      exec (.rbuf .obuf idx) s = .next { s with reply := some (.cell v) }) ∧
    (idx < s.params.icap → s.status = .busy ∨ s.ibuf.read idx = none →
      exec (.rbuf .ibuf idx) s =
        .next { s with reply := some (.cell (Config.freeByte s.draws)), draws := s.draws + 1 }) ∧
    (idx < s.params.ocap → s.status = .busy ∨ s.wp ≤ idx ∨ s.obuf.read idx = none →
      exec (.rbuf .obuf idx) s =
        .next { s with reply := some (.cell (Config.freeByte s.draws)), draws := s.draws + 1 }) ∧
    (∀ sel, (if sel = .ibuf then s.params.icap else s.params.ocap) ≤ idx →
      exec (.rbuf sel idx) s = .next { s with reply := none, refused := some .indexOutOfRange })

/-- WBUF (42_sequencer_and_host.md section 1): the write, ignored while BUSY, and marked at or above ICAP
(entry 6), while BUSY too: that the index check comes before the BUSY rule is the model's choice (entry
13). After an effective write the cell reads as written and every other cell as before. WBUF returns
nothing (entry 5). -/
def Obligations.WbufEffects : Prop :=
  ∀ (s : State) (idx : Nat) (v : Byte),
    (s.status ≠ .busy → idx < s.params.icap →
      ∃ m : Memory, exec (.wbuf idx v) s = .next { s with ibuf := m, reply := none } ∧
        m.read idx = some v ∧ (∀ a, a ≠ idx → m.read a = s.ibuf.read a)) ∧
    (s.status = .busy → idx < s.params.icap →
      exec (.wbuf idx v) s = .next { s with reply := none }) ∧
    (s.params.icap ≤ idx →
      exec (.wbuf idx v) s = .next { s with reply := none, refused := some .indexOutOfRange })

/-- While BUSY no host command changes the block, and every one completes (42_sequencer_and_host.md
section 5); nor does it change what the host does next (entry 3). -/
def Obligations.BusyIgnoresHost : Prop :=
  ∀ (s : State) (i : Instr), s.status = .busy → isHostCommand i = true →
    ∃ t, exec i s = .next t ∧ s.SameBlock t ∧ t.hostMoves = s.hostMoves

/-- The frame of RREG, WREG, RBUF, WBUF (42_sequencer_and_host.md section 1): no host command writes OBUF
or the constants; only WBUF writes IBUF, one cell; only WREG changes MODE, ILEN, STATUS, RP, WP, ERRIDX,
the last four only by START. Only RBUF draws a free value (entry 7). -/
def Obligations.HostFrame : Prop :=
  ∀ (s t : State) (i : Instr), isHostCommand i = true → exec i s = .next t →
    t.params = s.params ∧ t.obuf = s.obuf ∧ t.hostMoves = s.hostMoves ∧
    (∀ a, (∀ v, i ≠ .wbuf a v) → t.ibuf.read a = s.ibuf.read a) ∧
    ((∀ v, i ≠ .wreg 2 v) → t.mode = s.mode) ∧
    ((∀ v, i ≠ .wreg 3 v) → t.ilen = s.ilen) ∧
    ((∀ v, i ≠ .wreg 0 v) →
      t.status = s.status ∧ t.rp = s.rp ∧ t.wp = s.wp ∧ t.errIdx = s.errIdx) ∧
    ((∀ sel idx, i ≠ .rbuf sel idx) → t.draws = s.draws)

/-! ## The whole machine -/

/-- Every step keeps the invariant, from every state that meets it. -/
def Obligations.StepKeepsInvariant : Prop :=
  ∀ s t : State, s.Inv → step s = .next t → t.Inv

/-- The invariant holds after reset, of every instance that meets R9. -/
def Obligations.ResetMeetsInvariant : Prop :=
  (∀ p : Params, p.Valid → (State.resetWith p).Inv) ∧ State.reset.Inv

/-- Every step keeps both buffers in their canonical form. -/
def Obligations.StepKeepsBuffersCanonical : Prop :=
  ∀ s t : State, s.ibuf.Canonical → s.obuf.Canonical → step s = .next t →
    t.ibuf.Canonical ∧ t.obuf.Canonical

/-- The straps and sizes are constants: no step changes them (10_state.md section 1). -/
def Obligations.StepKeepsParams : Prop :=
  ∀ s t : State, step s = .next t → t.params = s.params

/-- 10_state.md section 2: the codes of STATUS, that the host cannot write it, and the state each change of
it begins in: to IDLE with the reset event next, to BUSY with a START next whose launch premise holds (host
moves: entry 3), from BUSY to DONE with RP = ILEN, from BUSY to ERROR in DEC mode under STRICT. That no host
command makes the last two is BusyIgnoresHost. -/
def Obligations.StatusChanges : Prop :=
  (Status.code .idle = 0#2 ∧ Status.code .busy = 1#2 ∧ Status.code .done = 2#2 ∧
    Status.code .error = 3#2) ∧
  (∀ s v, ∃ r, exec (.wreg 1 v) s = .next { s with reply := r }) ∧
  ∀ s t : State, step s = .next t → t.status ≠ s.status →
    (t.status = .idle ∧ ∃ l, s.hostMoves = .reset :: l) ∨
    (t.status = .busy ∧ s.LaunchPremise ∧
      ∃ r l v, s.hostMoves = .issue r :: l ∧ decode (.hc r) = .ok (.wreg 0 v) ∧ v % 2 = 1) ∨
    (s.status = .busy ∧ t.status = .done ∧ s.rp = s.ilen) ∨
    (s.status = .busy ∧ t.status = .error ∧ s.mode = .dec ∧ s.params.invalidPolicy = .strict)

/-- A refusal marks the state for good (60_exceptions.md section 2; entry 6): no step clears the mark. -/
def Obligations.MarkIsSticky : Prop :=
  ∀ s t : State, step s = .next t → t.Unmarked → s.Unmarked

/-- While a run is in progress the block's step completes, and either ends the run or moves RP forward,
never past ILEN (42_sequencer_and_host.md section 3). -/
def Obligations.BlockStepProgress : Prop :=
  ∀ s : State, s.Inv → s.status = .busy → s.hostMoves = [] →
    ∃ t, step s = .next t ∧
      (t.status ≠ .busy ∨ (t.status = .busy ∧ s.rp < t.rp ∧ t.rp ≤ s.ilen ∧ s.wp ≤ t.wp))

/-! ## The whole-buffer functions -/

/-- 41_decoder.md section 4: `go` takes one group of at most four characters, checks it under STRICT, and
goes on with the bytes it emits appended. -/
def Obligations.DecodeByGroups : Prop :=
  ∀ (p : Params) (r : Nat) (out str : List Byte),
    (str = [] → decodeGo p r out str = .ok out) ∧
    (str ≠ [] →
      let grp := str.take 4
      decodeGo p r out str =
        if p.invalidPolicy = .strict ∧ grp.any isInvalid = true then
          .err (r + grp.findIdx isInvalid) out
        else
          decodeGo p (r + grp.length)
            (out ++ (reconstruct p.revDefault grp).take (tail (effLen p grp))) (str.drop 4)) ∧
    decodeChars p str = decodeGo p 0 [] str

/-- The document's properties 2, 3, 4 of `encode` (40_encoder.md section 4): length, closure, padding. -/
def Obligations.EncodeShape : Prop :=
  ∀ bs : List Byte,
    (encodeBytes bs).length = 4 * ((bs.length + 2) / 3) ∧
    ∃ body, encodeBytes bs = body ++ List.replicate ((3 - bs.length % 3) % 3) 0x3D#8 ∧
      ∀ c ∈ body, isAlpha c = true

/-- `encode` of a concatenation at a group boundary (40_encoder.md section 4). -/
def Obligations.EncodeConcat : Prop :=
  ∀ b1 b2 : List Byte, b1.length % 3 = 0 → encodeBytes (b1 ++ b2) = encodeBytes b1 ++ encodeBytes b2

/-- `encode` is injective (40_encoder.md section 4). -/
def Obligations.EncodeInjective : Prop :=
  ∀ b1 b2 : List Byte, encodeBytes b1 = encodeBytes b2 → b1 = b2

/-- The length of the decode output (41_decoder.md section 4): DecLenMax in PASSTHROUGH, at most that
always. -/
def Obligations.DecodeLength : Prop :=
  ∀ (p : Params) (str : List Byte),
    (decodeChars p str).bytes.length ≤ decLenMax str.length ∧
    (∀ ys, p.padMode = .passthrough → decodeChars p str = .ok ys → ys.length = decLenMax str.length) ∧
    (p.invalidPolicy = .permissive → ∃ ys, decodeChars p str = .ok ys)

/-- The round trip in TRUNCATE, for every policy and default (41_decoder.md section 6). -/
def Obligations.RoundTripTruncate : Prop :=
  ∀ (p : Params) (bs : List Byte), p.padMode = .truncate → decodeChars p (encodeBytes bs) = .ok bs

/-- The round trip in PASSTHROUGH: B and the exact extra bytes (41_decoder.md section 6). -/
def Obligations.RoundTripPassthrough : Prop :=
  ∀ (p : Params) (bs : List Byte), p.padMode = .passthrough →
    let d := p.revDefault.setWidth 8
    decodeChars p (encodeBytes bs) = .ok (bs ++
      (if bs.length % 3 = 1 then [d >>> 2, ((d &&& 0x03#8) <<< 6) ||| d]
       else if bs.length % 3 = 2 then [d] else []))

/-- The round trip of text whose pads the host removed, in either mode (41_decoder.md section 6). -/
def Obligations.RoundTripStripped : Prop :=
  ∀ (p : Params) (bs : List Byte), decodeChars p (stripPads (encodeBytes bs)) = .ok bs

/-- `WellFormed(S)` is exactly "S is `encode(B)` for some B" (41_decoder.md section 6). -/
def Obligations.WellFormedIffEncoded : Prop :=
  ∀ str : List Byte, wellFormedText str = true ↔ ∃ bs, encodeBytes bs = str

/-- On alphabet text of full groups `decode` succeeds and `encode` undoes it (41_decoder.md section 6). -/
def Obligations.EncodeAfterDecode : Prop :=
  ∀ (p : Params) (str : List Byte), str.length % 4 = 0 → (∀ c ∈ str, isAlpha c = true) →
    ∃ bs, decodeChars p str = .ok bs ∧ encodeBytes bs = str

/-! ## Runs -/

/-- A run with no host move takes exactly its number of steps, BUSY until the last, and ends with the
result of `encode` or `decode` (42_sequencer_and_host.md section 3; entry 3 for the host's moves). -/
def Obligations.RunComputesCodec : Prop :=
  ∀ (s : State) (xs : List Byte), s.Launched → s.hostMoves = [] → s.InputIs xs →
    (∀ k, k < s.runLength xs → ∃ u, Sys2Proof.core.run k s = .next u ∧ u.status = .busy) ∧
    ∃ t, Sys2Proof.core.run (s.runLength xs) s = .next t ∧ s.RunResult xs t

/-- Under every interleaving with host commands the first state that is not BUSY holds the same result
(42_sequencer_and_host.md section 5; the interleaving is the host's list of moves, entry 3). -/
def Obligations.RunResultUnderInterleaving : Prop :=
  ∀ (s t : State) (xs : List Byte) (n : Nat), s.Launched → s.InputIs xs →
    HostMove.reset ∉ s.hostMoves → Sys2Proof.core.run n s = .next t →
    (∀ k u, k < n → Sys2Proof.core.run k s = .next u → u.status = .busy) → t.status ≠ .busy →
    s.RunResult xs t

/-- The result depends on nothing but MODE, the input, and the straps (42_sequencer_and_host.md section 3):
two runs that agree on those end alike, whatever else their states and their hosts do. -/
def Obligations.RunDependsOnInputOnly : Prop :=
  ∀ (s s' t t' : State) (xs : List Byte) (n n' : Nat),
    s.Launched → s'.Launched → s.InputIs xs → s'.InputIs xs → s'.mode = s.mode →
    s'.params.padMode = s.params.padMode → s'.params.invalidPolicy = s.params.invalidPolicy →
    s'.params.revDefault = s.params.revDefault →
    HostMove.reset ∉ s.hostMoves → HostMove.reset ∉ s'.hostMoves →
    Sys2Proof.core.run n s = .next t → Sys2Proof.core.run n' s' = .next t' →
    (∀ k u, k < n → Sys2Proof.core.run k s = .next u → u.status = .busy) →
    (∀ k u, k < n' → Sys2Proof.core.run k s' = .next u → u.status = .busy) →
    t.status ≠ .busy → t'.status ≠ .busy →
    t'.status = t.status ∧ t'.wp = t.wp ∧ t'.errIdx = t.errIdx ∧ t'.rp = t.rp ∧
    ∀ a, a < t.wp → t'.obuf.read a = t.obuf.read a

/-- Every run ends, whatever the host does meanwhile: within one step per command (of which a read of the
output makes one per cell), and one for each cell left and one to halt, each of these with a poll of STATUS
before it where the host waits (42_sequencer_and_host.md section 3; 70_reset_and_hazards.md section 4;
entries 3 and 18 for the host's moves). -/
def Obligations.EveryRunEnds : Prop :=
  ∀ s : State, s.Inv → s.status = .busy → HostMove.reset ∉ s.hostMoves →
    (∀ r, HostMove.issue r ∈ s.hostMoves → ∃ i, decode (.hc r) = .ok i ∧ i.wf s.params.lenW = true) →
    ∃ n t, n ≤ (s.hostMoves.map (HostMove.cost s.params.ocap)).sum +
        (if HostMove.pollStatus ∈ s.hostMoves then 2 else 1) * (s.ilen - s.rp + 1) ∧
      Sys2Proof.core.run n s = .next t ∧ t.status ≠ .busy

/-- WAIT is "repeat `RREG STATUS` until the value is not 1": the read is repeated, after a step of the
block, exactly when it returns 1. The end of a call reads OLEN and then as many cells of OBUF as that read
returned (30_encoding.md section 6; the host's moves are entry 3, the step between two polls and the form of
the moves entry 18, the reply field entry 5). -/
def Obligations.HostActsOnReplies : Prop :=
  ∀ (s : State) (l : List HostMove),
    (s.hostMoves = .pollStatus :: l →
      (s.status = .busy → step s = .next
        { s with reply := some (.reg 1), hostMoves := .wait :: .pollStatus :: l }) ∧
      (s.status ≠ .busy → ∃ v, v ≠ 1 ∧ step s = .next
        { s with reply := some (.reg v), hostMoves := l })) ∧
    (s.hostMoves = .readOutput :: l → step s = .next
      { s with
        reply := some (.reg s.wp)
        hostMoves := (List.range s.wp).map
          (fun i => HostMove.issue { op := 0b10#2, sel := 1#1, num := i, val := 0 }) ++ l })

/-- ENCODE and DECODE (30_encoding.md section 6): from a state with no run in progress, whose host makes the
call on `xs`, the machine comes to the host's reads of the output, with the value L that `RREG OLEN`
returned the length of the result, the result in OBUF, and a read of each of its L cells left to make, in
order. The capacities admit the call (42_sequencer_and_host.md section 2), and lengths fit (entry 12). The
host's moves are entries 3 and 18, the reply field entry 5. -/
def Obligations.CallDeliversResult : Prop :=
  ∀ (s : State) (m : Mode) (xs : List Byte), s.params.Valid → s.status ≠ .busy →
    xs.length ≤ s.params.icap → outMax m xs.length ≤ s.params.ocap →
    s.hostMoves = pseudoCall m xs →
    let result := match m with
      | .enc => encodeBytes xs
      | .dec => (decodeChars s.params xs).bytes
    ∃ n t, Sys2Proof.core.run n s = .next t ∧ t.status ≠ .busy ∧ t.OutputIs result ∧
      t.reply = some (.reg result.length) ∧ t.hostMoves = (List.range result.length).map
        (fun i => HostMove.issue { op := 0b10#2, sel := 1#1, num := i, val := 0 })
end

