-- ==== Sys2Proof/Laws/Memory.lean ====
section
/-! SUPPORT. The laws of the buffers: read after write, the canonical form, bounds, and what a fetch of
cells returns. -/

namespace Sys2Proof.Machine

@[simp] theorem Memory.read_nil (a : Nat) : Memory.read [] a = none := rfl

theorem Memory.read_write_same (m : Memory) (a : Nat) (v : Byte) : (m.write a v).read a = some v := by
  induction m with
  | nil => simp [Memory.write, Memory.read]
  | cons x t ih =>
    obtain ⟨b, w⟩ := x
    simp only [Memory.write]
    split
    · simp [Memory.read]
    · split
      · simp [Memory.read]
      · next h => simp [Memory.read, ih, Ne.symm h]

theorem Memory.read_write_other (m : Memory) {a b : Nat} (v : Byte) (h : b ≠ a) :
    (m.write a v).read b = m.read b := by
  induction m with
  | nil => simp [Memory.write, Memory.read, Ne.symm h]
  | cons x t ih =>
    obtain ⟨c, w⟩ := x
    simp only [Memory.write]
    split
    · simp [Memory.read, Ne.symm h]
    · split
      · next h2 => subst h2; simp [Memory.read, Ne.symm h]
      · simp [Memory.read, ih]

/-- A written buffer lists no address that was not listed before, but the written one. -/
theorem Memory.mem_write {m : Memory} {a : Nat} {v : Byte} {x : Host.Cell} (h : x ∈ m.write a v) :
    x = (a, v) ∨ x ∈ m := by
  induction m with
  | nil => simpa [Memory.write] using h
  | cons y t ih =>
    obtain ⟨b, w⟩ := y
    simp only [Memory.write] at h
    split at h
    · simpa using h
    · split at h
      · rcases List.mem_cons.1 h with h | h
        · exact .inl h
        · exact .inr (List.mem_cons_of_mem _ h)
      · rcases List.mem_cons.1 h with h | h
        · exact .inr (h ▸ List.mem_cons_self)
        · exact (ih h).imp_right (List.mem_cons_of_mem _)

theorem Memory.canonical_write {m : Memory} (h : m.Canonical) (a : Nat) (v : Byte) :
    (m.write a v).Canonical := by
  induction m with
  | nil => simp [Memory.write, Memory.Canonical]
  | cons y t ih =>
    obtain ⟨b, w⟩ := y
    obtain ⟨hb, ht⟩ := List.pairwise_cons.1 h
    simp only [Memory.write]
    split
    · next hab =>
      refine List.pairwise_cons.2 ⟨fun x hx => ?_, h⟩
      rcases List.mem_cons.1 hx with rfl | hx
      · exact hab
      · exact Nat.lt_trans hab (hb x hx)
    · split
      · next hab => subst hab; exact List.pairwise_cons.2 ⟨hb, ht⟩
      · next hlt hne =>
        refine List.pairwise_cons.2 ⟨fun x hx => ?_, ih ht⟩
        rcases Memory.mem_write hx with rfl | hx
        · show b < a; omega
        · exact hb x hx

theorem Memory.canonical_writeCells {m : Memory} (h : m.Canonical) (a : Nat) (vs : List Byte) :
    (m.writeCells a vs).Canonical := by
  induction vs generalizing m a with
  | nil => exact h
  | cons v vs ih => exact ih (Memory.canonical_write h a v) (a + 1)

/-- Writing below a bound keeps every listed address below it. -/
theorem Memory.bounded_write {m : Memory} {n : Nat} (h : ∀ x ∈ m, x.1 < n) {a : Nat} (ha : a < n)
    (v : Byte) : ∀ x ∈ m.write a v, x.1 < n := fun x hx => by
  rcases Memory.mem_write hx with rfl | hx
  · exact ha
  · exact h x hx

theorem Memory.bounded_writeCells {m : Memory} {n : Nat} (h : ∀ x ∈ m, x.1 < n) {a : Nat}
    {vs : List Byte} (ha : a + vs.length ≤ n) : ∀ x ∈ m.writeCells a vs, x.1 < n := by
  induction vs generalizing m a with
  | nil => exact h
  | cons v vs ih =>
    simp only [List.length_cons] at ha
    exact ih (Memory.bounded_write h (by omega) v) (by omega)

/-- The cells outside the written range read as before. -/
theorem Memory.read_writeCells_outside (m : Memory) {a b : Nat} {vs : List Byte}
    (h : b < a ∨ a + vs.length ≤ b) : (m.writeCells a vs).read b = m.read b := by
  induction vs generalizing m a with
  | nil => rfl
  | cons v vs ih =>
    simp only [List.length_cons] at h
    rw [Memory.writeCells, ih _ (by omega), Memory.read_write_other _ _ (by omega)]

/-- The written cells read as written. -/
theorem Memory.read_writeCells_inside (m : Memory) (a : Nat) {vs : List Byte} {i : Nat} {v : Byte}
    (h : vs[i]? = some v) : (m.writeCells a vs).read (a + i) = some v := by
  induction vs generalizing m a i with
  | nil => simp at h
  | cons w vs ih =>
    cases i with
    | zero =>
      simp only [List.getElem?_cons_zero, Option.some.injEq] at h
      rw [Memory.writeCells, Memory.read_writeCells_outside _ (by omega), Nat.add_zero, h,
        Memory.read_write_same]
    | succ i =>
      have := ih (m.write a w) (a + 1) (by simpa using h)
      rwa [Nat.add_assoc, Nat.add_comm 1 i] at this

@[simp] theorem Memory.writeCells_nil (m : Memory) (a : Nat) : m.writeCells a [] = m := rfl

/-! ## Fetching cells -/

theorem fetchCell_written {m : Memory} {a : Nat} {v : Byte} (h : m.read a = some v) (d : Nat) :
    fetchCell m d a = (v, d) := by simp [fetchCell, h]

theorem fetchCell_unwritten {m : Memory} {a : Nat} (h : m.read a = none) (d : Nat) :
    fetchCell m d a = (Config.freeByte d, d + 1) := by simp [fetchCell, h]

@[simp] theorem fetchCells_length (m : Memory) (d a n : Nat) : (fetchCells m d a n).1.length = n := by
  induction n generalizing d a with
  | zero => rfl
  | succ n ih => simp [fetchCells, ih]

/-- A fetch depends only on the cells it reads. -/
theorem fetchCells_congr {m m' : Memory} {a n : Nat}
    (h : ∀ b, a ≤ b → b < a + n → m'.read b = m.read b) (d : Nat) :
    fetchCells m' d a n = fetchCells m d a n := by
  induction n generalizing d a with
  | zero => rfl
  | succ n ih =>
    have h0 : fetchCell m' d a = fetchCell m d a := by
      simp [fetchCell, h a (Nat.le_refl a) (by omega)]
    simp only [fetchCells, h0]
    rw [ih (fun b hb hb' => h b (by omega) (by omega))]

/-- A fetch of written cells returns them and draws nothing. -/
theorem fetchCells_written {m : Memory} {a : Nat} {xs : List Byte}
    (h : ∀ i v, xs[i]? = some v → m.read (a + i) = some v) (d : Nat) :
    fetchCells m d a xs.length = (xs, d) := by
  induction xs generalizing a with
  | nil => rfl
  | cons x xs ih =>
    have h0 : fetchCell m d a = (x, d) := fetchCell_written (h 0 x (by simp)) d
    have hr : fetchCells m d (a + 1) xs.length = (xs, d) :=
      ih (fun i v hi => by
        have := h (i + 1) v (by simpa using hi)
        rwa [Nat.add_assoc, Nat.add_comm 1 i])
    simp [fetchCells, h0, hr]

end Sys2Proof.Machine
end

