-- ==== Sys2Proof/Laws/State.lean ====
section
/-! SUPPORT. Each register update, field by field: later proofs unfold no record update. -/

namespace Sys2Proof.Machine

/-! ### State.advance -/

@[simp] theorem State.advance_params (s : State) (cnt : Nat) (out : List Byte) : (s.advance cnt out).params = s.params := rfl
@[simp] theorem State.advance_mode (s : State) (cnt : Nat) (out : List Byte) : (s.advance cnt out).mode = s.mode := rfl
@[simp] theorem State.advance_ilen (s : State) (cnt : Nat) (out : List Byte) : (s.advance cnt out).ilen = s.ilen := rfl
@[simp] theorem State.advance_status (s : State) (cnt : Nat) (out : List Byte) : (s.advance cnt out).status = s.status := rfl
@[simp] theorem State.advance_rp (s : State) (cnt : Nat) (out : List Byte) : (s.advance cnt out).rp = s.rp + cnt := rfl
@[simp] theorem State.advance_wp (s : State) (cnt : Nat) (out : List Byte) : (s.advance cnt out).wp = s.wp + out.length := rfl
@[simp] theorem State.advance_errIdx (s : State) (cnt : Nat) (out : List Byte) : (s.advance cnt out).errIdx = s.errIdx := rfl
@[simp] theorem State.advance_ibuf (s : State) (cnt : Nat) (out : List Byte) : (s.advance cnt out).ibuf = s.ibuf := rfl
@[simp] theorem State.advance_obuf (s : State) (cnt : Nat) (out : List Byte) : (s.advance cnt out).obuf = s.obuf.writeCells s.wp out := rfl
@[simp] theorem State.advance_hostMoves (s : State) (cnt : Nat) (out : List Byte) : (s.advance cnt out).hostMoves = s.hostMoves := rfl
@[simp] theorem State.advance_reply (s : State) (cnt : Nat) (out : List Byte) : (s.advance cnt out).reply = s.reply := rfl
@[simp] theorem State.advance_refused (s : State) (cnt : Nat) (out : List Byte) : (s.advance cnt out).refused = s.refused := rfl
@[simp] theorem State.advance_draws (s : State) (cnt : Nat) (out : List Byte) : (s.advance cnt out).draws = s.draws := rfl

/-! ### State.raiseInvalidCharacter -/

@[simp] theorem State.raiseInvalidCharacter_params (s : State) (idx : Nat) : (s.raiseInvalidCharacter idx).params = s.params := rfl
@[simp] theorem State.raiseInvalidCharacter_mode (s : State) (idx : Nat) : (s.raiseInvalidCharacter idx).mode = s.mode := rfl
@[simp] theorem State.raiseInvalidCharacter_ilen (s : State) (idx : Nat) : (s.raiseInvalidCharacter idx).ilen = s.ilen := rfl
@[simp] theorem State.raiseInvalidCharacter_status (s : State) (idx : Nat) : (s.raiseInvalidCharacter idx).status = .error := rfl
@[simp] theorem State.raiseInvalidCharacter_rp (s : State) (idx : Nat) : (s.raiseInvalidCharacter idx).rp = s.rp := rfl
@[simp] theorem State.raiseInvalidCharacter_wp (s : State) (idx : Nat) : (s.raiseInvalidCharacter idx).wp = s.wp := rfl
@[simp] theorem State.raiseInvalidCharacter_errIdx (s : State) (idx : Nat) : (s.raiseInvalidCharacter idx).errIdx = idx := rfl
@[simp] theorem State.raiseInvalidCharacter_ibuf (s : State) (idx : Nat) : (s.raiseInvalidCharacter idx).ibuf = s.ibuf := rfl
@[simp] theorem State.raiseInvalidCharacter_obuf (s : State) (idx : Nat) : (s.raiseInvalidCharacter idx).obuf = s.obuf := rfl
@[simp] theorem State.raiseInvalidCharacter_hostMoves (s : State) (idx : Nat) : (s.raiseInvalidCharacter idx).hostMoves = s.hostMoves := rfl
@[simp] theorem State.raiseInvalidCharacter_reply (s : State) (idx : Nat) : (s.raiseInvalidCharacter idx).reply = s.reply := rfl
@[simp] theorem State.raiseInvalidCharacter_refused (s : State) (idx : Nat) : (s.raiseInvalidCharacter idx).refused = s.refused := rfl
@[simp] theorem State.raiseInvalidCharacter_draws (s : State) (idx : Nat) : (s.raiseInvalidCharacter idx).draws = s.draws := rfl

/-! ### State.halt -/

@[simp] theorem State.halt_params (s : State) : (s.halt).params = s.params := rfl
@[simp] theorem State.halt_mode (s : State) : (s.halt).mode = s.mode := rfl
@[simp] theorem State.halt_ilen (s : State) : (s.halt).ilen = s.ilen := rfl
@[simp] theorem State.halt_status (s : State) : (s.halt).status = .done := rfl
@[simp] theorem State.halt_rp (s : State) : (s.halt).rp = s.rp := rfl
@[simp] theorem State.halt_wp (s : State) : (s.halt).wp = s.wp := rfl
@[simp] theorem State.halt_errIdx (s : State) : (s.halt).errIdx = s.errIdx := rfl
@[simp] theorem State.halt_ibuf (s : State) : (s.halt).ibuf = s.ibuf := rfl
@[simp] theorem State.halt_obuf (s : State) : (s.halt).obuf = s.obuf := rfl
@[simp] theorem State.halt_hostMoves (s : State) : (s.halt).hostMoves = s.hostMoves := rfl
@[simp] theorem State.halt_reply (s : State) : (s.halt).reply = s.reply := rfl
@[simp] theorem State.halt_refused (s : State) : (s.halt).refused = s.refused := rfl
@[simp] theorem State.halt_draws (s : State) : (s.halt).draws = s.draws := rfl

/-! ### State.launch -/

@[simp] theorem State.launch_params (s : State) : (s.launch).params = s.params := rfl
@[simp] theorem State.launch_mode (s : State) : (s.launch).mode = s.mode := rfl
@[simp] theorem State.launch_ilen (s : State) : (s.launch).ilen = s.ilen := rfl
@[simp] theorem State.launch_status (s : State) : (s.launch).status = .busy := rfl
@[simp] theorem State.launch_rp (s : State) : (s.launch).rp = 0 := rfl
@[simp] theorem State.launch_wp (s : State) : (s.launch).wp = 0 := rfl
@[simp] theorem State.launch_errIdx (s : State) : (s.launch).errIdx = 0 := rfl
@[simp] theorem State.launch_ibuf (s : State) : (s.launch).ibuf = s.ibuf := rfl
@[simp] theorem State.launch_obuf (s : State) : (s.launch).obuf = s.obuf := rfl
@[simp] theorem State.launch_hostMoves (s : State) : (s.launch).hostMoves = s.hostMoves := rfl
@[simp] theorem State.launch_reply (s : State) : (s.launch).reply = s.reply := rfl
@[simp] theorem State.launch_refused (s : State) : (s.launch).refused = s.refused := rfl
@[simp] theorem State.launch_draws (s : State) : (s.launch).draws = s.draws := rfl

/-! ### State.withDraws -/

@[simp] theorem State.withDraws_params (s : State) (d : Nat) : (s.withDraws d).params = s.params := rfl
@[simp] theorem State.withDraws_mode (s : State) (d : Nat) : (s.withDraws d).mode = s.mode := rfl
@[simp] theorem State.withDraws_ilen (s : State) (d : Nat) : (s.withDraws d).ilen = s.ilen := rfl
@[simp] theorem State.withDraws_status (s : State) (d : Nat) : (s.withDraws d).status = s.status := rfl
@[simp] theorem State.withDraws_rp (s : State) (d : Nat) : (s.withDraws d).rp = s.rp := rfl
@[simp] theorem State.withDraws_wp (s : State) (d : Nat) : (s.withDraws d).wp = s.wp := rfl
@[simp] theorem State.withDraws_errIdx (s : State) (d : Nat) : (s.withDraws d).errIdx = s.errIdx := rfl
@[simp] theorem State.withDraws_ibuf (s : State) (d : Nat) : (s.withDraws d).ibuf = s.ibuf := rfl
@[simp] theorem State.withDraws_obuf (s : State) (d : Nat) : (s.withDraws d).obuf = s.obuf := rfl
@[simp] theorem State.withDraws_hostMoves (s : State) (d : Nat) : (s.withDraws d).hostMoves = s.hostMoves := rfl
@[simp] theorem State.withDraws_reply (s : State) (d : Nat) : (s.withDraws d).reply = s.reply := rfl
@[simp] theorem State.withDraws_refused (s : State) (d : Nat) : (s.withDraws d).refused = s.refused := rfl
@[simp] theorem State.withDraws_draws (s : State) (d : Nat) : (s.withDraws d).draws = d := rfl

/-! ### State.setMode -/

@[simp] theorem State.setMode_params (s : State) (m : Mode) : (s.setMode m).params = s.params := rfl
@[simp] theorem State.setMode_mode (s : State) (m : Mode) : (s.setMode m).mode = m := rfl
@[simp] theorem State.setMode_ilen (s : State) (m : Mode) : (s.setMode m).ilen = s.ilen := rfl
@[simp] theorem State.setMode_status (s : State) (m : Mode) : (s.setMode m).status = s.status := rfl
@[simp] theorem State.setMode_rp (s : State) (m : Mode) : (s.setMode m).rp = s.rp := rfl
@[simp] theorem State.setMode_wp (s : State) (m : Mode) : (s.setMode m).wp = s.wp := rfl
@[simp] theorem State.setMode_errIdx (s : State) (m : Mode) : (s.setMode m).errIdx = s.errIdx := rfl
@[simp] theorem State.setMode_ibuf (s : State) (m : Mode) : (s.setMode m).ibuf = s.ibuf := rfl
@[simp] theorem State.setMode_obuf (s : State) (m : Mode) : (s.setMode m).obuf = s.obuf := rfl
@[simp] theorem State.setMode_hostMoves (s : State) (m : Mode) : (s.setMode m).hostMoves = s.hostMoves := rfl
@[simp] theorem State.setMode_reply (s : State) (m : Mode) : (s.setMode m).reply = s.reply := rfl
@[simp] theorem State.setMode_refused (s : State) (m : Mode) : (s.setMode m).refused = s.refused := rfl
@[simp] theorem State.setMode_draws (s : State) (m : Mode) : (s.setMode m).draws = s.draws := rfl

/-! ### State.setIlen -/

@[simp] theorem State.setIlen_params (s : State) (n : Nat) : (s.setIlen n).params = s.params := rfl
@[simp] theorem State.setIlen_mode (s : State) (n : Nat) : (s.setIlen n).mode = s.mode := rfl
@[simp] theorem State.setIlen_ilen (s : State) (n : Nat) : (s.setIlen n).ilen = n := rfl
@[simp] theorem State.setIlen_status (s : State) (n : Nat) : (s.setIlen n).status = s.status := rfl
@[simp] theorem State.setIlen_rp (s : State) (n : Nat) : (s.setIlen n).rp = s.rp := rfl
@[simp] theorem State.setIlen_wp (s : State) (n : Nat) : (s.setIlen n).wp = s.wp := rfl
@[simp] theorem State.setIlen_errIdx (s : State) (n : Nat) : (s.setIlen n).errIdx = s.errIdx := rfl
@[simp] theorem State.setIlen_ibuf (s : State) (n : Nat) : (s.setIlen n).ibuf = s.ibuf := rfl
@[simp] theorem State.setIlen_obuf (s : State) (n : Nat) : (s.setIlen n).obuf = s.obuf := rfl
@[simp] theorem State.setIlen_hostMoves (s : State) (n : Nat) : (s.setIlen n).hostMoves = s.hostMoves := rfl
@[simp] theorem State.setIlen_reply (s : State) (n : Nat) : (s.setIlen n).reply = s.reply := rfl
@[simp] theorem State.setIlen_refused (s : State) (n : Nat) : (s.setIlen n).refused = s.refused := rfl
@[simp] theorem State.setIlen_draws (s : State) (n : Nat) : (s.setIlen n).draws = s.draws := rfl

/-! ### State.storeInput -/

@[simp] theorem State.storeInput_params (s : State) (idx : Nat) (v : Byte) : (s.storeInput idx v).params = s.params := rfl
@[simp] theorem State.storeInput_mode (s : State) (idx : Nat) (v : Byte) : (s.storeInput idx v).mode = s.mode := rfl
@[simp] theorem State.storeInput_ilen (s : State) (idx : Nat) (v : Byte) : (s.storeInput idx v).ilen = s.ilen := rfl
@[simp] theorem State.storeInput_status (s : State) (idx : Nat) (v : Byte) : (s.storeInput idx v).status = s.status := rfl
@[simp] theorem State.storeInput_rp (s : State) (idx : Nat) (v : Byte) : (s.storeInput idx v).rp = s.rp := rfl
@[simp] theorem State.storeInput_wp (s : State) (idx : Nat) (v : Byte) : (s.storeInput idx v).wp = s.wp := rfl
@[simp] theorem State.storeInput_errIdx (s : State) (idx : Nat) (v : Byte) : (s.storeInput idx v).errIdx = s.errIdx := rfl
@[simp] theorem State.storeInput_ibuf (s : State) (idx : Nat) (v : Byte) : (s.storeInput idx v).ibuf = s.ibuf.write idx v := rfl
@[simp] theorem State.storeInput_obuf (s : State) (idx : Nat) (v : Byte) : (s.storeInput idx v).obuf = s.obuf := rfl
@[simp] theorem State.storeInput_hostMoves (s : State) (idx : Nat) (v : Byte) : (s.storeInput idx v).hostMoves = s.hostMoves := rfl
@[simp] theorem State.storeInput_reply (s : State) (idx : Nat) (v : Byte) : (s.storeInput idx v).reply = s.reply := rfl
@[simp] theorem State.storeInput_refused (s : State) (idx : Nat) (v : Byte) : (s.storeInput idx v).refused = s.refused := rfl
@[simp] theorem State.storeInput_draws (s : State) (idx : Nat) (v : Byte) : (s.storeInput idx v).draws = s.draws := rfl

/-! ### State.answer -/

@[simp] theorem State.answer_params (s : State) (r : Option Reply) : (s.answer r).params = s.params := rfl
@[simp] theorem State.answer_mode (s : State) (r : Option Reply) : (s.answer r).mode = s.mode := rfl
@[simp] theorem State.answer_ilen (s : State) (r : Option Reply) : (s.answer r).ilen = s.ilen := rfl
@[simp] theorem State.answer_status (s : State) (r : Option Reply) : (s.answer r).status = s.status := rfl
@[simp] theorem State.answer_rp (s : State) (r : Option Reply) : (s.answer r).rp = s.rp := rfl
@[simp] theorem State.answer_wp (s : State) (r : Option Reply) : (s.answer r).wp = s.wp := rfl
@[simp] theorem State.answer_errIdx (s : State) (r : Option Reply) : (s.answer r).errIdx = s.errIdx := rfl
@[simp] theorem State.answer_ibuf (s : State) (r : Option Reply) : (s.answer r).ibuf = s.ibuf := rfl
@[simp] theorem State.answer_obuf (s : State) (r : Option Reply) : (s.answer r).obuf = s.obuf := rfl
@[simp] theorem State.answer_hostMoves (s : State) (r : Option Reply) : (s.answer r).hostMoves = s.hostMoves := rfl
@[simp] theorem State.answer_reply (s : State) (r : Option Reply) : (s.answer r).reply = r := rfl
@[simp] theorem State.answer_refused (s : State) (r : Option Reply) : (s.answer r).refused = s.refused := rfl
@[simp] theorem State.answer_draws (s : State) (r : Option Reply) : (s.answer r).draws = s.draws := rfl

/-! ### State.refuse -/

@[simp] theorem State.refuse_params (s : State) (r : CommandRefusal) : (s.refuse r).params = s.params := rfl
@[simp] theorem State.refuse_mode (s : State) (r : CommandRefusal) : (s.refuse r).mode = s.mode := rfl
@[simp] theorem State.refuse_ilen (s : State) (r : CommandRefusal) : (s.refuse r).ilen = s.ilen := rfl
@[simp] theorem State.refuse_status (s : State) (r : CommandRefusal) : (s.refuse r).status = s.status := rfl
@[simp] theorem State.refuse_rp (s : State) (r : CommandRefusal) : (s.refuse r).rp = s.rp := rfl
@[simp] theorem State.refuse_wp (s : State) (r : CommandRefusal) : (s.refuse r).wp = s.wp := rfl
@[simp] theorem State.refuse_errIdx (s : State) (r : CommandRefusal) : (s.refuse r).errIdx = s.errIdx := rfl
@[simp] theorem State.refuse_ibuf (s : State) (r : CommandRefusal) : (s.refuse r).ibuf = s.ibuf := rfl
@[simp] theorem State.refuse_obuf (s : State) (r : CommandRefusal) : (s.refuse r).obuf = s.obuf := rfl
@[simp] theorem State.refuse_hostMoves (s : State) (r : CommandRefusal) : (s.refuse r).hostMoves = s.hostMoves := rfl
@[simp] theorem State.refuse_reply (s : State) (r : CommandRefusal) : (s.refuse r).reply = none := rfl
@[simp] theorem State.refuse_refused (s : State) (r : CommandRefusal) : (s.refuse r).refused = some r := rfl
@[simp] theorem State.refuse_draws (s : State) (r : CommandRefusal) : (s.refuse r).draws = s.draws := rfl

/-! ### State.withMoves -/

@[simp] theorem State.withMoves_params (s : State) (l : List HostMove) : (s.withMoves l).params = s.params := rfl
@[simp] theorem State.withMoves_mode (s : State) (l : List HostMove) : (s.withMoves l).mode = s.mode := rfl
@[simp] theorem State.withMoves_ilen (s : State) (l : List HostMove) : (s.withMoves l).ilen = s.ilen := rfl
@[simp] theorem State.withMoves_status (s : State) (l : List HostMove) : (s.withMoves l).status = s.status := rfl
@[simp] theorem State.withMoves_rp (s : State) (l : List HostMove) : (s.withMoves l).rp = s.rp := rfl
@[simp] theorem State.withMoves_wp (s : State) (l : List HostMove) : (s.withMoves l).wp = s.wp := rfl
@[simp] theorem State.withMoves_errIdx (s : State) (l : List HostMove) : (s.withMoves l).errIdx = s.errIdx := rfl
@[simp] theorem State.withMoves_ibuf (s : State) (l : List HostMove) : (s.withMoves l).ibuf = s.ibuf := rfl
@[simp] theorem State.withMoves_obuf (s : State) (l : List HostMove) : (s.withMoves l).obuf = s.obuf := rfl
@[simp] theorem State.withMoves_hostMoves (s : State) (l : List HostMove) : (s.withMoves l).hostMoves = l := rfl
@[simp] theorem State.withMoves_reply (s : State) (l : List HostMove) : (s.withMoves l).reply = s.reply := rfl
@[simp] theorem State.withMoves_refused (s : State) (l : List HostMove) : (s.withMoves l).refused = s.refused := rfl
@[simp] theorem State.withMoves_draws (s : State) (l : List HostMove) : (s.withMoves l).draws = s.draws := rfl

/-! ### State.resetEvent -/

@[simp] theorem State.resetEvent_params (s : State) : (s.resetEvent).params = s.params := rfl
@[simp] theorem State.resetEvent_mode (s : State) : (s.resetEvent).mode = .enc := rfl
@[simp] theorem State.resetEvent_ilen (s : State) : (s.resetEvent).ilen = 0 := rfl
@[simp] theorem State.resetEvent_status (s : State) : (s.resetEvent).status = .idle := rfl
@[simp] theorem State.resetEvent_rp (s : State) : (s.resetEvent).rp = 0 := rfl
@[simp] theorem State.resetEvent_wp (s : State) : (s.resetEvent).wp = 0 := rfl
@[simp] theorem State.resetEvent_errIdx (s : State) : (s.resetEvent).errIdx = 0 := rfl
@[simp] theorem State.resetEvent_ibuf (s : State) : (s.resetEvent).ibuf = [] := rfl
@[simp] theorem State.resetEvent_obuf (s : State) : (s.resetEvent).obuf = [] := rfl
@[simp] theorem State.resetEvent_hostMoves (s : State) : (s.resetEvent).hostMoves = s.hostMoves := rfl
@[simp] theorem State.resetEvent_reply (s : State) : (s.resetEvent).reply = s.reply := rfl
@[simp] theorem State.resetEvent_refused (s : State) : (s.resetEvent).refused = s.refused := rfl
@[simp] theorem State.resetEvent_draws (s : State) : (s.resetEvent).draws = s.draws := rfl

/-! ### State.resetWith -/

@[simp] theorem State.resetWith_params (p : Params) : (State.resetWith p).params = p := rfl
@[simp] theorem State.resetWith_mode (p : Params) : (State.resetWith p).mode = .enc := rfl
@[simp] theorem State.resetWith_ilen (p : Params) : (State.resetWith p).ilen = 0 := rfl
@[simp] theorem State.resetWith_status (p : Params) : (State.resetWith p).status = .idle := rfl
@[simp] theorem State.resetWith_rp (p : Params) : (State.resetWith p).rp = 0 := rfl
@[simp] theorem State.resetWith_wp (p : Params) : (State.resetWith p).wp = 0 := rfl
@[simp] theorem State.resetWith_errIdx (p : Params) : (State.resetWith p).errIdx = 0 := rfl
@[simp] theorem State.resetWith_ibuf (p : Params) : (State.resetWith p).ibuf = [] := rfl
@[simp] theorem State.resetWith_obuf (p : Params) : (State.resetWith p).obuf = [] := rfl
@[simp] theorem State.resetWith_hostMoves (p : Params) : (State.resetWith p).hostMoves = [] := rfl
@[simp] theorem State.resetWith_reply (p : Params) : (State.resetWith p).reply = none := rfl
@[simp] theorem State.resetWith_refused (p : Params) : (State.resetWith p).refused = none := rfl
@[simp] theorem State.resetWith_draws (p : Params) : (State.resetWith p).draws = 0 := rfl

end Sys2Proof.Machine
end

