-- ==== Sys2Proof/Laws/Ops.lean ====
section
/-! SUPPORT. What each shared operation can do, said once: provers cite these and do not unfold. -/

namespace Sys2Proof.Machine

/-! ## Block operations -/

theorem State.finish_emit (s : State) (cnt : Nat) (out : List Byte) :
    s.finish cnt (.emit out) =
      if s.wp + out.length ≤ s.params.ocap then .next (s.advance cnt out) else .fault .obufOutOfRange := rfl

theorem State.finish_invalid (s : State) (cnt pos : Nat) :
    s.finish cnt (.invalid pos) = .next (s.raiseInvalidCharacter (s.rp + pos)) := rfl

/-- A block operation that answers a next state was selected, read inside IBUF, and either emitted its
cells inside OBUF or took the exception. -/
theorem blockOperation_next {m : Mode} {cnt : Nat} {op : Params → List Byte → GroupResult} {s t : State}
    (h : blockOperation m cnt op s = .next t) :
    s.Selects m cnt ∧ s.rp + cnt ≤ s.params.icap ∧ ∃ d,
      (∃ out, op s.params (fetchCells s.ibuf s.draws s.rp cnt).1 = .emit out ∧
        s.wp + out.length ≤ s.params.ocap ∧ t = (s.withDraws d).advance cnt out) ∨
      (∃ pos, op s.params (fetchCells s.ibuf s.draws s.rp cnt).1 = .invalid pos ∧
        t = (s.withDraws d).raiseInvalidCharacter (s.rp + pos)) := by
  unfold blockOperation at h
  split at h
  · next hsel =>
    split at h
    · next hcap =>
      refine ⟨hsel, hcap, (fetchCells s.ibuf s.draws s.rp cnt).2, ?_⟩
      cases hop : op s.params (fetchCells s.ibuf s.draws s.rp cnt).1 with
      | emit out =>
        rw [hop, State.finish_emit] at h
        split at h
        · next hw => exact .inl ⟨out, rfl, hw, (Host.Outcome.next.inj h).symm⟩
        · cases h
      | invalid pos =>
        rw [hop] at h
        exact .inr ⟨pos, rfl, (Host.Outcome.next.inj h).symm⟩
    · cases h
  · cases h

/-- A selected operation whose group yields `out` completes (R180). -/
theorem blockOperation_emit {m : Mode} {cnt : Nat} {op : Params → List Byte → GroupResult} {s : State}
    (hsel : s.Selects m cnt) (hcap : s.rp + cnt ≤ s.params.icap) {out : List Byte}
    (hop : op s.params (fetchCells s.ibuf s.draws s.rp cnt).1 = .emit out)
    (hw : s.wp + out.length ≤ s.params.ocap) :
    blockOperation m cnt op s =
      .next ((s.withDraws (fetchCells s.ibuf s.draws s.rp cnt).2).advance cnt out) := by
  simp only [blockOperation, if_pos hsel, if_pos hcap, hop, State.finish]
  exact if_pos hw

/-- A selected operation whose group holds an invalid character takes the exception (R204). -/
theorem blockOperation_invalid {m : Mode} {cnt : Nat} {op : Params → List Byte → GroupResult} {s : State}
    (hsel : s.Selects m cnt) (hcap : s.rp + cnt ≤ s.params.icap) {pos : Nat}
    (hop : op s.params (fetchCells s.ibuf s.draws s.rp cnt).1 = .invalid pos) :
    blockOperation m cnt op s =
      .next ((s.withDraws (fetchCells s.ibuf s.draws s.rp cnt).2).raiseInvalidCharacter (s.rp + pos)) := by
  simp only [blockOperation, if_pos hsel, if_pos hcap, hop]
  rfl

theorem haltOperation_next {m : Mode} {s t : State} (h : haltOperation m s = .next t) :
    s.Selects m 0 ∧ t = s.halt := by
  unfold haltOperation at h
  split at h
  · next hsel => exact ⟨hsel, (Host.Outcome.next.inj h).symm⟩
  · cases h

theorem haltOperation_selected {m : Mode} {s : State} (h : s.Selects m 0) :
    haltOperation m s = .next s.halt := if_pos h

/-- With no cell left the pointer is at the end of the input. -/
theorem State.Selects.rp_eq {s : State} {m : Mode} (h : s.Selects m 0) : s.rp = s.ilen := by
  obtain ⟨-, -, hle, hc⟩ := h
  have : 0 < groupWidth s.mode := by cases s.mode <;> decide
  simp only [State.groupCount] at hc
  omega

/-- A selected group lies inside the input (R64). -/
theorem State.Selects.group_le {s : State} {m : Mode} {cnt : Nat} (h : s.Selects m cnt) :
    s.rp + cnt ≤ s.ilen := by
  obtain ⟨-, -, hle, hc⟩ := h
  simp only [State.groupCount] at hc
  omega

/-! ## Host operations -/

theorem State.start_cases (s : State) :
    (s.status = .busy ∧ s.start = s.answer none) ∨
    (s.status ≠ .busy ∧ s.LaunchPremise ∧ s.start = s.launch.answer none) ∨
    (s.status ≠ .busy ∧ ¬ s.LaunchPremise ∧ s.start = s.refuse .launchExceedsCapacity) := by
  unfold State.start
  split
  · next h => exact .inl ⟨h, rfl⟩
  · next h =>
    split
    · next hp => exact .inr (.inl ⟨h, hp, rfl⟩)
    · next hp => exact .inr (.inr ⟨h, hp, rfl⟩)

theorem State.unlessBusy_cases (s t : State) :
    (s.status = .busy ∧ s.unlessBusy t = s.answer none) ∨
    (s.status ≠ .busy ∧ s.unlessBusy t = t.answer none) := by
  unfold State.unlessBusy
  split
  · next h => exact .inl ⟨h, rfl⟩
  · next h => exact .inr ⟨h, rfl⟩

/-- Everything a register write can do (R173, R177). -/
theorem State.writeRegister_cases (s : State) (n v : Nat) :
    s.writeRegister n v = s.answer none ∨
    (s.status ≠ .busy ∧ s.LaunchPremise ∧ n = 0 ∧ s.writeRegister n v = s.launch.answer none) ∨
    (s.status ≠ .busy ∧ n = 2 ∧ s.writeRegister n v = (s.setMode (Mode.ofValue v)).answer none) ∨
    (s.status ≠ .busy ∧ n = 3 ∧ s.writeRegister n v = (s.setIlen v).answer none) ∨
    (∃ r, s.writeRegister n v = s.refuse r) := by
  unfold State.writeRegister
  split
  · split
    · rcases s.start_cases with ⟨-, h⟩ | ⟨hb, hp, h⟩ | ⟨-, -, h⟩
      · exact .inl h
      · exact .inr (.inl ⟨hb, hp, rfl, h⟩)
      · exact .inr (.inr (.inr (.inr ⟨_, h⟩)))
    · exact .inl rfl
  · exact .inl rfl
  · rcases s.unlessBusy_cases (s.setMode (Mode.ofValue v)) with ⟨-, h⟩ | ⟨hb, h⟩
    · exact .inl h
    · exact .inr (.inr (.inl ⟨hb, rfl, h⟩))
  · rcases s.unlessBusy_cases (s.setIlen v) with ⟨-, h⟩ | ⟨hb, h⟩
    · exact .inl h
    · exact .inr (.inr (.inr (.inl ⟨hb, rfl, h⟩)))
  all_goals first
    | exact .inl rfl
    | exact .inr (.inr (.inr (.inr ⟨_, rfl⟩)))

/-- Everything a buffer read can do (R174). -/
theorem State.readBuffer_cases (s : State) (sel : BufSel) (idx : Nat) :
    (∃ d v, s.readBuffer sel idx = (s.withDraws d).answer (some (.cell v))) ∨
    (∃ r, s.readBuffer sel idx = s.refuse r) := by
  unfold State.readBuffer
  split
  · split
    · exact .inl ⟨s.draws, _, rfl⟩
    · exact .inl ⟨_, _, rfl⟩
  · exact .inr ⟨_, rfl⟩

/-- Everything a buffer write can do (R175). -/
theorem State.writeBuffer_cases (s : State) (idx : Nat) (v : Byte) :
    s.writeBuffer idx v = s.answer none ∨
    (s.status ≠ .busy ∧ idx < s.params.icap ∧
      s.writeBuffer idx v = (s.storeInput idx v).answer none) ∨
    (∃ r, s.writeBuffer idx v = s.refuse r) := by
  unfold State.writeBuffer
  split
  · next hi =>
    rcases s.unlessBusy_cases (s.storeInput idx v) with ⟨-, h⟩ | ⟨hb, h⟩
    · exact .inl h
    · exact .inr (.inl ⟨hb, hi, h⟩)
  · exact .inr (.inr ⟨_, rfl⟩)

/-! ## The instructions and the step -/

/-- The operation, mode and number of cells of the seven block operations that consume a group. -/
def groupOperation : Instr → Option (Mode × Nat × (Params → List Byte → GroupResult))
  | .enc1 => some (.enc, 1, enc1Group)
  | .enc2 => some (.enc, 2, enc2Group)
  | .enc3 => some (.enc, 3, enc3Group)
  | .dec1 => some (.dec, 1, dec1Group)
  | .dec2 => some (.dec, 2, dec2Group)
  | .dec3 => some (.dec, 3, dec3Group)
  | .dec4 => some (.dec, 4, dec4Group)
  | .ehalt => none
  | .dhalt => none
  | .rreg _ => none
  | .wreg _ _ => none
  | .rbuf _ _ => none
  | .wbuf _ _ => none

/-- Each of the seven is the shared block operation. -/
theorem exec_groupOperation {i : Instr} {m : Mode} {cnt : Nat} {op : Params → List Byte → GroupResult}
    (h : groupOperation i = some (m, cnt, op)) (s : State) : exec i s = blockOperation m cnt op s := by
  cases i <;> simp only [groupOperation, Option.some.injEq, Prod.mk.injEq, reduceCtorEq] at h <;>
    (obtain ⟨rfl, rfl, rfl⟩ := h; rfl)

/-- Everything an instruction can do when it answers a next state: complete a group or take the
exception; halt; or one of the effects of a host command. -/
theorem exec_next_cases {i : Instr} {s t : State} (h : exec i s = .next t) :
    (∃ m cnt op, groupOperation i = some (m, cnt, op) ∧ blockOperation m cnt op s = .next t) ∨
    (∃ m, s.Selects m 0 ∧ t = s.halt) ∨
    (∃ r, t = s.answer r) ∨
    (∃ d r, t = (s.withDraws d).answer r) ∨
    (∃ r, t = s.refuse r) ∨
    (s.status ≠ .busy ∧ s.LaunchPremise ∧ t = s.launch.answer none) ∨
    (∃ m, s.status ≠ .busy ∧ t = (s.setMode m).answer none) ∨
    (∃ v, s.status ≠ .busy ∧ i = .wreg 3 v ∧ t = (s.setIlen v).answer none) ∨
    (∃ idx v, s.status ≠ .busy ∧ idx < s.params.icap ∧ i = .wbuf idx v ∧
      t = (s.storeInput idx v).answer none) := by
  have grp : ∀ {m cnt op}, groupOperation i = some (m, cnt, op) →
      ∃ m cnt op, groupOperation i = some (m, cnt, op) ∧ blockOperation m cnt op s = .next t :=
    fun hg => ⟨_, _, _, hg, (exec_groupOperation hg s).symm.trans h⟩
  cases i with
  | ehalt => exact .inr (.inl ⟨.enc, haltOperation_next h⟩)
  | dhalt => exact .inr (.inl ⟨.dec, haltOperation_next h⟩)
  | enc1 => exact .inl (grp rfl)
  | enc2 => exact .inl (grp rfl)
  | enc3 => exact .inl (grp rfl)
  | dec1 => exact .inl (grp rfl)
  | dec2 => exact .inl (grp rfl)
  | dec3 => exact .inl (grp rfl)
  | dec4 => exact .inl (grp rfl)
  | rreg n =>
    simp only [exec, execRreg] at h
    split at h
    · exact .inr (.inr (.inl ⟨_, (Host.Outcome.next.inj h).symm⟩))
    · exact .inr (.inr (.inr (.inr (.inl ⟨_, (Host.Outcome.next.inj h).symm⟩))))
  | wreg n v =>
    have ht : t = s.writeRegister n v := (Host.Outcome.next.inj h).symm
    rcases s.writeRegister_cases n v with h | ⟨hb, hp, -, h⟩ | ⟨hb, -, h⟩ | ⟨hb, hn, h⟩ | ⟨r, h⟩
    · exact .inr (.inr (.inl ⟨_, ht.trans h⟩))
    · exact .inr (.inr (.inr (.inr (.inr (.inl ⟨hb, hp, ht.trans h⟩)))))
    · exact .inr (.inr (.inr (.inr (.inr (.inr (.inl ⟨_, hb, ht.trans h⟩))))))
    · exact .inr (.inr (.inr (.inr (.inr (.inr (.inr (.inl ⟨v, hb, by rw [hn], ht.trans h⟩)))))))
    · exact .inr (.inr (.inr (.inr (.inl ⟨r, ht.trans h⟩))))
  | rbuf sel idx =>
    have ht : t = s.readBuffer sel idx := (Host.Outcome.next.inj h).symm
    rcases s.readBuffer_cases sel idx with ⟨d, v, h⟩ | ⟨r, h⟩
    · exact .inr (.inr (.inr (.inl ⟨d, _, ht.trans h⟩)))
    · exact .inr (.inr (.inr (.inr (.inl ⟨r, ht.trans h⟩))))
  | wbuf idx v =>
    have ht : t = s.writeBuffer idx v := (Host.Outcome.next.inj h).symm
    rcases s.writeBuffer_cases idx v with h | ⟨hb, hi, h⟩ | ⟨r, h⟩
    · exact .inr (.inr (.inl ⟨_, ht.trans h⟩))
    · exact .inr (.inr (.inr (.inr (.inr (.inr (.inr (.inr ⟨idx, v, hb, hi, rfl, ht.trans h⟩)))))))
    · exact .inr (.inr (.inr (.inr (.inl ⟨r, ht.trans h⟩))))

/-- Running a code to a next state is running the well-formed instruction it decodes to. -/
theorem runCode_next {c : Code} {s t : State} (h : runCode c s = .next t) :
    ∃ i, decode c = .ok i ∧ i.wf s.params.lenW = true ∧ exec i s = .next t := by
  unfold runCode at h
  split at h
  · cases h
  · next i hd =>
    split at h
    · next hw => exact ⟨i, hd, hw, h⟩
    · cases h

theorem runCode_ok {c : Code} {s : State} {i : Instr} (hd : decode c = .ok i)
    (hw : i.wf s.params.lenW = true) : runCode c s = exec i s := by
  simp [runCode, hd, hw]

/-- Everything the host's reaction can do: give the host other moves (R103). -/
theorem State.react_cases (s : State) (a : Reaction) : ∃ l, s.react a = s.withMoves l := by
  cases a <;> simp only [State.react] <;> split <;> exact ⟨_, rfl⟩

/-- A register read whose value the host acts on changes the reply and the host's moves, nothing else. -/
theorem thenReact_next {a : Reaction} {n v : Nat} {s t : State} (hv : s.hreg n = some v)
    (h : thenReact a (runCode (encode (.rreg n)) s) = .next t) :
    ∃ l, t = (s.withMoves l).answer (some (.reg v)) := by
  rw [runCode_ok (i := .rreg n) rfl rfl] at h
  simp only [exec, execRreg, hv, thenReact, Host.Outcome.next.injEq] at h
  obtain ⟨l, hl⟩ := (s.answer (some (.reg v))).react_cases a
  exact ⟨l, h.symm.trans hl⟩

/-- Everything one step can do: run a decoded instruction after the host's list has moved on, take the
reset event, keep the state, or read a register for the host to act on. -/
theorem step_next_cases {s t : State} (h : step s = .next t) :
    ∃ l, (∃ c i, (s.status = .busy ∧ c = .bd (s.withMoves l).descriptor ∨ ∃ r, c = .hc r) ∧
        decode c = .ok i ∧ i.wf s.params.lenW = true ∧ exec i (s.withMoves l) = .next t) ∨
      t = (s.withMoves l).resetEvent ∨
      (s.status ≠ .busy ∧ t = s.withMoves l) ∨
      ∃ v, t = (s.withMoves l).answer (some (.reg v)) := by
  have block : ∀ l, (match (s.withMoves l).blockTurn with
      | .run c u => runCode c u
      | .query c a u => thenReact a (runCode c u)
      | .reset u => .next u.resetEvent
      | .idle u => .next u) = .next t →
      (∃ c i, (s.status = .busy ∧ c = .bd (s.withMoves l).descriptor ∨ ∃ r, c = .hc r) ∧
        decode c = .ok i ∧ i.wf s.params.lenW = true ∧ exec i (s.withMoves l) = .next t) ∨
      t = (s.withMoves l).resetEvent ∨ (s.status ≠ .busy ∧ t = s.withMoves l) ∨
      ∃ v, t = (s.withMoves l).answer (some (.reg v)) := by
    intro l hl
    by_cases hb : s.status = .busy
    · rw [show (s.withMoves l).blockTurn = .run (.bd (s.withMoves l).descriptor) (s.withMoves l) from
        if_pos hb] at hl
      obtain ⟨i, hd, hw, he⟩ := runCode_next hl
      exact .inl ⟨_, i, .inl ⟨hb, rfl⟩, hd, hw, he⟩
    · rw [show (s.withMoves l).blockTurn = .idle (s.withMoves l) from if_neg hb] at hl
      exact .inr (.inr (.inl ⟨hb, (Host.Outcome.next.inj hl).symm⟩))
  unfold step State.turn at h
  cases hm : s.hostMoves with
  | nil =>
    have hs : s.withMoves [] = s := by cases s; simp_all [State.withMoves]
    rw [hm] at h
    exact ⟨[], block [] (by rw [hs]; exact h)⟩
  | cons mv rest =>
    rw [hm] at h
    cases mv with
    | issue r =>
      obtain ⟨i, hd, hw, he⟩ := runCode_next h
      exact ⟨rest, .inl ⟨_, i, .inr ⟨r, rfl⟩, hd, hw, he⟩⟩
    | reset => exact ⟨rest, .inr (.inl (Host.Outcome.next.inj h).symm)⟩
    | wait => exact ⟨rest, block rest h⟩
    | pollStatus =>
      obtain ⟨l, hl⟩ := thenReact_next (s := s.withMoves rest) (n := 1) rfl h
      exact ⟨l, .inr (.inr (.inr ⟨_, hl⟩))⟩
    | readOutput =>
      obtain ⟨l, hl⟩ := thenReact_next (s := s.withMoves rest) (n := 4) rfl h
      exact ⟨l, .inr (.inr (.inr ⟨_, hl⟩))⟩

/-- With an empty list of moves a busy block takes its own step. -/
theorem step_block {s : State} (hm : s.hostMoves = []) (hb : s.status = .busy) :
    step s = runCode (.bd s.descriptor) s := by
  simp [step, State.turn, hm, State.blockTurn, hb]

end Sys2Proof.Machine
end

