-- ==== Sys2Proof/Laws/Codec.lean ====
section
/-! SUPPORT. What the pure operations on a group can yield, the lengths of R17, the bits of the 24-bit
group values, and induction over groups of three and of four: provers cite these and do not unfold. -/

namespace Sys2Proof.Machine

/-! ## Lengths -/

theorem tail_eq (n : Nat) :
    tail n = if n ≤ 1 then 0 else if n = 2 then 1 else if n = 3 then 2 else 3 := by
  match n with
  | 0 => rfl
  | 1 => rfl
  | 2 => rfl
  | 3 => rfl
  | n + 4 => simp [tail]

theorem tail_mono {a b : Nat} (h : a ≤ b) : tail a ≤ tail b := by
  rw [tail_eq, tail_eq]
  split_ifs <;> omega

theorem encLen_mono {a b : Nat} (h : a ≤ b) : encLen a ≤ encLen b := by
  unfold encLen
  omega

theorem decLenMax_mono {a b : Nat} (h : a ≤ b) : decLenMax a ≤ decLenMax b := by
  simp only [decLenMax, tail_eq]
  split_ifs <;> omega

/-- The effective length is at most the length of the group (R145). -/
theorem effLen_le (p : Params) (grp : List Byte) : effLen p grp ≤ grp.length := by
  unfold effLen
  split
  · exact Nat.le_refl _
  · exact Nat.min_le_left _ _

/-- A group of up to four characters makes `Tail` of its length bytes. -/
theorem reconstruct_length (d : Sextet) {grp : List Byte} (h : grp.length ≤ 4) :
    (reconstruct d grp).length = tail grp.length := by
  match grp, h with
  | [], _ => rfl
  | [_], _ => rfl
  | [_, _], _ => rfl
  | [_, _, _], _ => rfl
  | [_, _, _, _], _ => rfl

/-! ## The bits of a group -/

theorem groupG_getLsbD (b0 b1 b2 : Byte) (i : Nat) : (groupG b0 b1 b2).getLsbD i =
    if i < 8 then b2.getLsbD i else if i < 16 then b1.getLsbD (i - 8) else b0.getLsbD (i - 16) := by
  show BitVec.getLsbD (w := 8 + 8 + 8) (b0 ++ b1 ++ b2) i = _
  rw [BitVec.getLsbD_append, BitVec.getLsbD_append]
  split_ifs <;> first | rfl | omega

theorem groupH_getLsbD (s1 s2 s3 s4 : Sextet) (i : Nat) : (groupH s1 s2 s3 s4).getLsbD i =
    if i < 6 then s4.getLsbD i else if i < 12 then s3.getLsbD (i - 6)
    else if i < 18 then s2.getLsbD (i - 12) else s1.getLsbD (i - 18) := by
  show BitVec.getLsbD (w := 6 + 6 + 6 + 6) (s1 ++ s2 ++ s3 ++ s4) i = _
  rw [BitVec.getLsbD_append, BitVec.getLsbD_append, BitVec.getLsbD_append]
  split_ifs <;> first | rfl | omega

/-! ## The STRICT check (R148) -/

theorem strictOffender_some {p : Params} {grp : List Byte}
    (h : p.invalidPolicy = .strict ∧ grp.any isInvalid = true) :
    strictOffender p grp = some (grp.findIdx isInvalid) := by
  simp only [strictOffender, h.1]
  rw [List.findIdx?_eq_some_iff_findIdx_eq]
  refine ⟨?_, rfl⟩
  rw [List.findIdx_lt_length]
  simpa using h.2

theorem strictOffender_none {p : Params} {grp : List Byte}
    (h : ¬ (p.invalidPolicy = .strict ∧ grp.any isInvalid = true)) : strictOffender p grp = none := by
  cases hp : p.invalidPolicy
  · simp [strictOffender, hp]
  · simp only [strictOffender, hp, List.findIdx?_eq_none_iff]
    simpa [hp] using h

theorem checkedEmit_invalid {p : Params} {grp bytes : List Byte}
    (h : p.invalidPolicy = .strict ∧ grp.any isInvalid = true) :
    checkedEmit p grp bytes = .invalid (grp.findIdx isInvalid) := by
  simp [checkedEmit, strictOffender_some h]

theorem checkedEmit_emit {p : Params} {grp bytes : List Byte}
    (h : ¬ (p.invalidPolicy = .strict ∧ grp.any isInvalid = true)) :
    checkedEmit p grp bytes = .emit (bytes.take (tail (effLen p grp))) := by
  simp [checkedEmit, strictOffender_none h]

/-! ## What a group operation yields -/

/-- An encoder operation emits four cells, whatever its bytes (R121 to R123). -/
theorem encoderGroup_emits {i : Instr} {cnt : Nat} {op : Params → List Byte → GroupResult}
    (h : groupOperation i = some (.enc, cnt, op)) (p : Params) {grp : List Byte}
    (hl : grp.length = cnt) : ∃ out, op p grp = .emit out ∧ out.length = 4 := by
  cases i <;> simp only [groupOperation, Option.some.injEq, Prod.mk.injEq, reduceCtorEq, false_and] at h <;>
    obtain ⟨-, rfl, rfl⟩ := h
  · match grp, hl with
    | [_], _ => exact ⟨_, rfl, rfl⟩
  · match grp, hl with
    | [_, _], _ => exact ⟨_, rfl, rfl⟩
  · match grp, hl with
    | [_, _, _], _ => exact ⟨_, rfl, rfl⟩

/-- A decoder operation checks its group and emits a prefix of the reconstructed bytes (R141 to R144). -/
theorem decoderGroup_eq {i : Instr} {cnt : Nat} {op : Params → List Byte → GroupResult}
    (h : groupOperation i = some (.dec, cnt, op)) (p : Params) {grp : List Byte}
    (hl : grp.length = cnt) : op p grp = checkedEmit p grp (reconstruct p.revDefault grp) := by
  cases i <;> simp only [groupOperation, Option.some.injEq, Prod.mk.injEq, reduceCtorEq, false_and] at h <;>
    obtain ⟨-, rfl, rfl⟩ := h
  · match grp, hl with
    | [_], _ => rfl
  · match grp, hl with
    | [_, _], _ => rfl
  · match grp, hl with
    | [_, _, _], _ => rfl
  · match grp, hl with
    | [_, _, _, _], _ => rfl

/-- The number of cells of a group operation lies between 1 and the group width of its mode. -/
theorem groupOperation_count {i : Instr} {m : Mode} {cnt : Nat}
    {op : Params → List Byte → GroupResult} (h : groupOperation i = some (m, cnt, op)) :
    1 ≤ cnt ∧ cnt ≤ groupWidth m := by
  cases i <;> simp only [groupOperation, Option.some.injEq, Prod.mk.injEq, reduceCtorEq] at h <;>
    (obtain ⟨rfl, rfl, rfl⟩ := h; decide)

/-! ## Buffers that hold a sequence -/

theorem Memory.Holds.append {m : Memory} {xs ys : List Byte} (h : m.Holds 0 xs) :
    (m.writeCells xs.length ys).Holds 0 (xs ++ ys) := by
  intro i v hi
  rw [Nat.zero_add]
  by_cases hlt : i < xs.length
  · rw [List.getElem?_append_left hlt] at hi
    rw [Memory.read_writeCells_outside _ (.inl hlt)]
    simpa using h i v hi
  · rw [List.getElem?_append_right (by omega)] at hi
    have := Memory.read_writeCells_inside m xs.length hi
    rwa [show xs.length + (i - xs.length) = i by omega] at this

/-- A cell that was written stays written, and so does every cell of the written range. -/
theorem Memory.written_writeCells {m : Memory} {a b : Nat} {vs : List Byte}
    (h : m.read b ≠ none ∨ (a ≤ b ∧ b < a + vs.length)) : (m.writeCells a vs).read b ≠ none := by
  by_cases hb : a ≤ b ∧ b < a + vs.length
  · have hi : b - a < vs.length := by omega
    have := Memory.read_writeCells_inside m a (vs := vs) (i := b - a) (v := vs[b - a])
      (List.getElem?_eq_getElem hi)
    rw [show a + (b - a) = b by omega] at this
    simp [this]
  · rw [Memory.read_writeCells_outside _ (by omega)]
    exact h.resolve_right hb

/-! ## Induction over groups -/

/-- Induction over the groups of `encode` (R130). -/
theorem groupsOfThree {P : List Byte → Prop} (nil : P []) (one : ∀ a, P [a]) (two : ∀ a b, P [a, b])
    (three : ∀ a b c t, P t → P (a :: b :: c :: t)) : ∀ l, P l
  | [] => nil
  | [a] => one a
  | [a, b] => two a b
  | a :: b :: c :: t => three a b c t (groupsOfThree nil one two three t)

/-- Induction over a text of full groups of four characters. -/
theorem groupsOfFour {P : (l : List Byte) → l.length % 4 = 0 → Prop} (nil : P [] rfl)
    (four : ∀ a b c d t (ht : t.length % 4 = 0), P t ht →
      P (a :: b :: c :: d :: t) (by simp only [List.length_cons]; omega)) :
    ∀ l (h : l.length % 4 = 0), P l h
  | [], _ => nil
  | [_], h => absurd h (by simp)
  | [_, _], h => absurd h (by simp)
  | [_, _, _], h => absurd h (by simp)
  | a :: b :: c :: d :: t, h =>
    have ht : t.length % 4 = 0 := by simp only [List.length_cons] at h; omega
    four a b c d t ht (groupsOfFour nil four t ht)

/-- The characters of a concatenation before its trailing Padding Markers. -/
theorem stripPads_append (a b : List Byte) :
    stripPads (a ++ b) = if stripPads b = [] then stripPads a else a ++ stripPads b := by
  simp only [stripPads, List.reverse_append, List.dropWhile_append, List.reverse_eq_nil_iff]
  cases h : List.dropWhile isPad b.reverse <;> simp

/-! ## Runs -/

/-- A run of `k + 1` steps is one step and a run of `k`. -/
theorem run_succ {s t : State} (h : step s = .next t) (k : Nat) :
    Sys2Proof.core.run (k + 1) s = Sys2Proof.core.run k t := by
  simp only [Host.Core.run]
  rw [show Sys2Proof.core.step s = step s from rfl, h]

/-- Every record that decodes is a host command (R102). -/
theorem decodeRecord_isHostCommand {r : HostRecord} {i : Instr} (h : decode (.hc r) = .ok i) :
    isHostCommand i = true := by
  simp only [decode, decodeRecord] at h
  split at h
  · cases h; rfl
  · cases h; rfl
  · cases h; rfl
  · split_ifs at h
    cases h
    rfl

/-- States that agree on the block's registers, buffers and constants meet the invariant together. -/
theorem State.Inv.sameBlock {s t : State} (hi : s.Inv) (h : s.SameBlock t) : t.Inv := by
  obtain ⟨h1, h2, h3, h4, h5, h6, h7, h8, h9⟩ := h
  cases s
  cases t
  simp only at h1 h2 h3 h4 h5 h6 h7 h8 h9
  subst h1 h2 h3 h4 h5 h6 h7 h8 h9
  exact ⟨hi.1, hi.2, hi.3, hi.4, hi.5, hi.6, hi.7, hi.8, hi.9, hi.10, hi.11⟩

end Sys2Proof.Machine
end

