-- ==== Sys2Proof/Laws/PerInstr.lean ====
section
/-! SUPPORT. The round trip of the encoding, instruction by instruction: decoding the code that the
encoder writes gives the instruction back, with every operand (30_encoding.md R96, R102). -/

namespace Sys2Proof.Laws.RoundTrip

/-- The decoder reads back what the encoder wrote. -/
def Statement (i : Instr) : Prop := decode (encode i) = .ok i

theorem ehalt : Statement .ehalt := rfl
theorem enc1 : Statement .enc1 := rfl
theorem enc2 : Statement .enc2 := rfl
theorem enc3 : Statement .enc3 := rfl
theorem dhalt : Statement .dhalt := rfl
theorem dec1 : Statement .dec1 := rfl
theorem dec2 : Statement .dec2 := rfl
theorem dec3 : Statement .dec3 := rfl
theorem dec4 : Statement .dec4 := rfl
theorem rreg (n : Nat) : Statement (.rreg n) := rfl
theorem wreg (n val : Nat) : Statement (.wreg n val) := rfl

theorem rbuf (sel : BufSel) (idx : Nat) : Statement (.rbuf sel idx) := by
  cases sel <;> rfl

theorem wbuf (idx : Nat) (val : Byte) : Statement (.wbuf idx val) := by
  have h : val.toNat < 256 := val.isLt
  simp [Statement, encode, decode, decodeRecord, h]

end Sys2Proof.Laws.RoundTrip
end

