-- ==== Sys2Proof/Tests/Slice0.lean ====
section
/-! SUPPORT. The model's own tests: the checks of WellFormed, the decoder on words written out from the
spec, one step of each instruction on values of 95_test_vectors.md, and, for every obligation that has
hypotheses, data that meets them. -/

namespace Sys2Proof.Tests

open Sys2Proof Sys2Proof.Machine

/-! ## Builders -/

/-- A small instance: lengths of 8 bits, both buffers of 16 cells. -/
def small (pad : PadMode) (policy : InvalidPolicy) (d : Sextet) : Params :=
  { padMode := pad, invalidPolicy := policy, revDefault := d, lenW := 8, icap := 16, ocap := 16 }

/-- PASSTHROUGH, PERMISSIVE, REV_DEFAULT 0. -/
def reference : Params := small .passthrough .permissive 0#6

/-- A run of mode `m` on `xs` that has just been launched. -/
def launched (p : Params) (m : Mode) (xs : List Byte) : State :=
  { State.resetWith p with
    mode := m
    status := .busy
    ilen := xs.length
    ibuf := Memory.writeCells [] 0 xs }

/-- The state an outcome goes on with. -/
def after : Host.Outcome State Fault Refusal → Option State
  | .next t => some t
  | .fault _ => none
  | .refused _ => none

/-- The cells of OBUF and the registers STATUS, RP, WP, ERRIDX after an outcome. -/
def seen (o : Host.Outcome State Fault Refusal) : Option (List Byte × Status × Nat × Nat × Nat) :=
  (after o).map fun t => (t.obuf.map (fun x => x.2), t.status, t.rp, t.wp, t.errIdx)

/-! ## WellFormed: a term each check refuses, beside the widest it admits (LEN_W = 8) -/

theorem test_wf_wreg : Instr.wf 8 (.wreg 3 256) = false ∧ Instr.wf 8 (.wreg 3 255) = true := by decide

theorem test_wf_rbuf :
    Instr.wf 8 (.rbuf .obuf 256) = false ∧ Instr.wf 8 (.rbuf .obuf 255) = true := by decide

theorem test_wf_wbuf :
    Instr.wf 8 (.wbuf 256 0#8) = false ∧ Instr.wf 8 (.wbuf 255 0#8) = true := by decide

/-- An ill-formed command is refused by the step, by name. -/
theorem test_wf_step_refuses :
    step { State.resetWith reference with
      hostMoves := [.issue { op := 1#2, sel := 0#1, num := 3, val := 256 }] } =
    .refused .operandTooWide := rfl

/-! ## Decoding words written out from 30_encoding.md R96 and R102 -/

theorem test_decode_ehalt : decode (.bd 0b0000#4) = .ok .ehalt := rfl
theorem test_decode_enc1 : decode (.bd 0b0001#4) = .ok .enc1 := rfl
theorem test_decode_enc2 : decode (.bd 0b0010#4) = .ok .enc2 := rfl
theorem test_decode_enc3 : decode (.bd 0b0011#4) = .ok .enc3 := rfl
theorem test_decode_dhalt : decode (.bd 0b1000#4) = .ok .dhalt := rfl
theorem test_decode_dec1 : decode (.bd 0b1001#4) = .ok .dec1 := rfl
theorem test_decode_dec2 : decode (.bd 0b1010#4) = .ok .dec2 := rfl
theorem test_decode_dec3 : decode (.bd 0b1011#4) = .ok .dec3 := rfl
theorem test_decode_dec4 : decode (.bd 0b1100#4) = .ok .dec4 := rfl

/-- Program P1's `RREG OLEN`, (0, 4). -/
theorem test_decode_rreg : decode (.hc ⟨0b00#2, 0#1, 4, 0⟩) = .ok (.rreg 4) := rfl

/-- Program P1's `WREG ILEN, 3`, (1, 3, 3). -/
theorem test_decode_wreg : decode (.hc ⟨0b01#2, 0#1, 3, 3⟩) = .ok (.wreg 3 3) := rfl

/-- Program P1's `RBUF OBUF, 3`, (2, 1, 3), and the same of IBUF. -/
theorem test_decode_rbuf : decode (.hc ⟨0b10#2, 1#1, 3, 0⟩) = .ok (.rbuf .obuf 3) ∧
    decode (.hc ⟨0b10#2, 0#1, 3, 0⟩) = .ok (.rbuf .ibuf 3) := ⟨rfl, rfl⟩

/-- Program P1's `WBUF 1, 0x61`, (3, 0, 1, 0x61). -/
theorem test_decode_wbuf : decode (.hc ⟨0b11#2, 0#1, 1, 0x61⟩) = .ok (.wbuf 1 0x61#8) := rfl

/-- R98: the reserved descriptors at the ends of both ranges. -/
theorem test_decode_reserved :
    decode (.bd 4#4) = .error (.reservedDescriptor 4#4) ∧
    decode (.bd 7#4) = .error (.reservedDescriptor 7#4) ∧
    decode (.bd 13#4) = .error (.reservedDescriptor 13#4) ∧
    decode (.bd 15#4) = .error (.reservedDescriptor 15#4) := ⟨rfl, rfl, rfl, rfl⟩

/-- R102: the host cannot write OBUF, and a cell value is 8 bits. -/
theorem test_decode_wbuf_refused :
    decode (.hc ⟨0b11#2, 1#1, 0, 0⟩) = .error .writeToObuf ∧
    decode (.hc ⟨0b11#2, 0#1, 0, 256⟩) = .error (.cellValueTooWide 256) := ⟨rfl, rfl⟩

/-- The words of the table's rows, whole bytes for the descriptors, two bits for the op codes. -/
theorem test_table_words :
    (List.map (decodeTableWord 8) [0, 1, 2, 3, 8, 9, 10, 11, 12] = List.map some blockOperations) ∧
    (List.map (decodeTableWord 2) [0, 1, 2, 3] =
      [some (.rreg 0), some (.wreg 0 0), some (.rbuf .ibuf 0), some (.wbuf 0 0#8)]) := by decide

/-- Placed where the next step finds them, the rows run from reset. -/
theorem test_fetch_words :
    (∀ w ∈ [0, 1, 2, 3, 8, 9, 10, 11, 12],
      (after (step (State.reset.withFetchWord 8 w))).isSome = true) ∧
    (∀ w ∈ [0, 1, 2, 3], (after (step (State.reset.withFetchWord 2 w))).isSome = true) := by decide

/-! ## One step of each instruction -/

/-- 95 section 3.2: 14 FB 9C gives "FPuc". -/
theorem test_enc3 : seen (step (launched reference .enc [0x14#8, 0xFB#8, 0x9C#8])) =
    some ([0x46#8, 0x50#8, 0x75#8, 0x63#8], .busy, 3, 4, 0) := by decide

/-- 95 section 3.2: 03 D9 7E gives "A9l+". -/
theorem test_enc3_high : seen (step (launched reference .enc [0x03#8, 0xD9#8, 0x7E#8])) =
    some ([0x41#8, 0x39#8, 0x6C#8, 0x2B#8], .busy, 3, 4, 0) := by decide

/-- 95 section 3.2: 6C 6F gives "bG8=". -/
theorem test_enc2 : seen (step (launched reference .enc [0x6C#8, 0x6F#8])) =
    some ([0x62#8, 0x47#8, 0x38#8, 0x3D#8], .busy, 2, 4, 0) := by decide

/-- 95 section 3.2: FF gives "/w==". -/
theorem test_enc1 : seen (step (launched reference .enc [0xFF#8])) =
    some ([0x2F#8, 0x77#8, 0x3D#8, 0x3D#8], .busy, 1, 4, 0) := by decide

/-- 42 R182: with ILEN = 0 the halting step is the first and only one. -/
theorem test_ehalt : seen (step (launched reference .enc [])) = some ([], .done, 0, 0, 0) := by decide

theorem test_dhalt : seen (step (launched reference .dec [])) = some ([], .done, 0, 0, 0) := by decide

/-- 95 section 3.3: "TW=u" in PASSTHROUGH with REV_DEFAULT 63 gives 4D 6F EE. -/
theorem test_dec4_passthrough :
    seen (step (launched (small .passthrough .permissive 63#6) .dec [0x54#8, 0x57#8, 0x3D#8, 0x75#8])) =
    some ([0x4D#8, 0x6F#8, 0xEE#8], .busy, 4, 3, 0) := by decide

/-- 95 section 3.4: "TW=*" in TRUNCATE under STRICT raises at index 3, after the pad. -/
theorem test_dec4_strict :
    seen (step (launched (small .truncate .strict 0#6) .dec [0x54#8, 0x57#8, 0x3D#8, 0x2A#8])) =
    some ([], .error, 0, 0, 3) := by decide

/-- 95 section 3.3: "TQ=" in PASSTHROUGH with REV_DEFAULT 63 gives 4D 0F. -/
theorem test_dec3_passthrough :
    seen (step (launched (small .passthrough .permissive 63#6) .dec [0x54#8, 0x51#8, 0x3D#8])) =
    some ([0x4D#8, 0x0F#8], .busy, 3, 2, 0) := by decide

/-- 95 section 3.3: "TQ=" in TRUNCATE gives 4D. -/
theorem test_dec3_truncate :
    seen (step (launched (small .truncate .permissive 0#6) .dec [0x54#8, 0x51#8, 0x3D#8])) =
    some ([0x4D#8], .busy, 3, 1, 0) := by decide

/-- 95 section 3.3: "T=" in PASSTHROUGH with REV_DEFAULT 63 gives 4F. -/
theorem test_dec2_passthrough :
    seen (step (launched (small .passthrough .permissive 63#6) .dec [0x54#8, 0x3D#8])) =
    some ([0x4F#8], .busy, 2, 1, 0) := by decide

/-- 95 section 3.3: "T=" in TRUNCATE gives nothing. -/
theorem test_dec2_truncate :
    seen (step (launched (small .truncate .permissive 0#6) .dec [0x54#8, 0x3D#8])) =
    some ([], .busy, 2, 0, 0) := by decide

/-- 95 section 3.3: one character is dropped. -/
theorem test_dec1 : seen (step (launched reference .dec [0x54#8])) = some ([], .busy, 1, 0, 0) := by
  decide

/-- 95 section 3.3: a space alone raises under STRICT. -/
theorem test_dec1_strict :
    seen (step (launched (small .passthrough .strict 0#6) .dec [0x20#8])) =
    some ([], .error, 0, 0, 0) := by decide

/-- 95 section 3.5: CONFIG of a TRUNCATE, STRICT block is 03, of a REV_DEFAULT 63 block FC. -/
theorem test_rreg_config :
    (after (exec (.rreg 6) (State.resetWith (small .truncate .strict 0#6)))).map (fun t => t.reply) =
      some (some (.reg 0x03)) ∧
    (after (exec (.rreg 6) (State.resetWith (small .passthrough .permissive 63#6)))).map
      (fun t => t.reply) = some (some (.reg 0xFC)) := by decide

/-- 95 section 3.5: `RREG 8` is refused, marked, and changes no register. -/
theorem test_rreg_reserved :
    (after (exec (.rreg 8) (State.resetWith reference))).map
      (fun t => (t.reply, t.refused, t.status)) =
    some (none, some .reservedRegister, .idle) := by decide

/-- 95 section 3.5: `WREG CTRL, 3` starts a run: only bit 0 counts. -/
theorem test_wreg_start :
    (after (exec (.wreg 0 3) (State.resetWith reference))).map (fun t => t.status) = some .busy := by
  decide

/-- 95 section 3.5: MODE = ENC, ILEN = 4, OCAP = 7: the START is refused, and no register changes. -/
theorem test_wreg_start_refused :
    after (exec (.wreg 0 1) { State.resetWith { reference with ocap := 7 } with ilen := 4 }) =
    some { State.resetWith { reference with ocap := 7 } with
      ilen := 4, refused := some .launchExceedsCapacity } := by decide

/-- Program P1: `RBUF OBUF, 3` after the run returns 0x75. -/
theorem test_rbuf :
    (after (exec (.rbuf .obuf 3) { State.resetWith reference with
      status := .done, wp := 4, obuf := Memory.writeCells [] 0 [0x54#8, 0x57#8, 0x46#8, 0x75#8] })).map
      (fun t => t.reply) = some (some (.cell 0x75#8)) := by decide

/-- 95 section 3.5: at or above OLEN the value is unspecified: a free value is drawn. -/
theorem test_rbuf_unspecified :
    (after (exec (.rbuf .obuf 4) { State.resetWith reference with status := .done, wp := 4 })).map
      (fun t => t.draws) = some 1 := by decide

/-- Program P1: `WBUF 0, 0x4D` stores 4D in cell 0. -/
theorem test_wbuf :
    (after (exec (.wbuf 0 0x4D#8) (State.resetWith reference))).map (fun t => t.ibuf) =
    some [(0, 0x4D#8)] := by decide

/-- 95 section 3.5: while BUSY the write is ignored. -/
theorem test_wbuf_busy :
    (after (exec (.wbuf 0 0x41#8) (launched reference .enc [0x4D#8]))).map (fun t => t.ibuf) =
    some [(0, 0x4D#8)] := by decide

/-- The reset event in the middle of a run (70 R230). -/
theorem test_reset_event :
    after (step { launched reference .dec [0x54#8] with hostMoves := [.reset] }) =
    some (State.resetWith reference) := by decide

/-- An operation that the sequencer does not select is refused by name (entry 9). -/
theorem test_not_selected : exec .enc3 (launched reference .enc [0x4D#8]) = .refused .notSelected := rfl

/-- 30 R103: WAIT polls again while the read of STATUS returns 1, and not after. -/
theorem test_wait_repeats :
    (after (step { launched reference .enc [] with hostMoves := [.pollStatus] })).map
      (fun t => (t.reply, t.hostMoves)) = some (some (.reg 1), [.wait, .pollStatus]) ∧
    (after (step { launched reference .enc [] with status := .done, hostMoves := [.pollStatus] })).map
      (fun t => (t.reply, t.hostMoves)) = some (some (.reg 2), []) := by decide

/-- 30 R103: with OLEN = 2 the call reads cells 0 and 1 of OBUF, records (2, 1, 0) and (2, 1, 1). -/
theorem test_read_output :
    (after (step { State.resetWith reference with
      status := .done, wp := 2, hostMoves := [.readOutput] })).map (fun t => (t.reply, t.hostMoves)) =
    some (some (.reg 2), [.issue ⟨2#2, 1#1, 0, 0⟩, .issue ⟨2#2, 1#1, 1, 0⟩]) := by decide

/-- 30 R103: the host moves of `ENCODE [0x4D]` up to START are its records in order. -/
theorem test_pseudo_call : callMoves .enc [0x4D#8] =
    [.issue ⟨3#2, 0#1, 0, 0x4D⟩, .issue ⟨1#2, 0#1, 2, 0⟩, .issue ⟨1#2, 0#1, 3, 1⟩,
     .issue ⟨1#2, 0#1, 0, 1⟩] := by decide

/-! ## Data that meets the hypotheses of the obligations -/

/-- A buffer just filled holds what it was filled with. -/
theorem filled_holds (xs : List Byte) : (Memory.writeCells [] 0 xs).Holds 0 xs := by
  have h : Memory.Holds [] 0 [] := fun i v hi => by simp at hi
  have := h.append (ys := xs)
  simpa using this

theorem launched_launched : (launched reference .enc [0x4D#8]).Launched := by decide

theorem launched_input (p : Params) (m : Mode) (xs : List Byte) : (launched p m xs).InputIs xs :=
  ⟨rfl, filled_holds xs⟩

/-- A run of ENC on four bytes after its first group. -/
def midEncode : State :=
  { launched reference .enc [0x66#8, 0x6F#8, 0x6F#8, 0x62#8] with
    rp := 3
    wp := 4
    obuf := Memory.writeCells [] 0 [0x5A#8, 0x6D#8, 0x39#8, 0x76#8] }

/-- A run of DEC under STRICT on "TWFu*" after its first group. -/
def midDecode : State :=
  { launched (small .truncate .strict 0#6) .dec [0x54#8, 0x57#8, 0x46#8, 0x75#8, 0x2A#8] with
    rp := 4
    wp := 3
    obuf := Memory.writeCells [] 0 [0x4D#8, 0x61#8, 0x6E#8] }

theorem midEncode_inv : midEncode.Inv :=
  ⟨by decide, by decide, by decide, by decide, by decide, by decide, by decide, by decide, by decide,
   by decide, by decide⟩

theorem midDecode_inv : midDecode.Inv :=
  ⟨by decide, by decide, by decide, by decide, by decide, by decide, by decide, by decide, by decide,
   by decide, by decide⟩

theorem witness_DecodeEncodeAgree :
    decode (.hc ⟨0b00#2, 1#1, 7, 9⟩) = .ok (.rreg 7) ∧ decode (.hc ⟨0b10#2, 1#1, 0, 9⟩) = .ok (.rbuf .obuf 0) ∧
    decode (.hc ⟨0b11#2, 0#1, 0, 255⟩) = .ok (.wbuf 0 0xFF#8) := ⟨rfl, rfl, rfl⟩

theorem witness_ReservedDescriptorsRefused : ∀ b ∈ [4#4, 7#4, 13#4, 15#4],
    (4 ≤ b.toNat ∧ b.toNat ≤ 7) ∨ 13 ≤ b.toNat := by decide

theorem witness_StepRunsDecoded_block : midEncode.hostMoves = [] ∧ midEncode.status = .busy ∧
    decode (.bd midEncode.descriptor) = .ok .enc1 := ⟨rfl, rfl, rfl⟩

theorem witness_StepRunsDecoded_wait :
    let s := { midDecode with hostMoves := [.wait, .reset] }
    s.hostMoves = .wait :: [.reset] ∧ s.status = .busy ∧
    decode (.bd s.descriptor) = .ok .dec1 := ⟨rfl, rfl, rfl⟩

theorem witness_StepRunsDecoded_issue :
    let r : HostRecord := ⟨0b01#2, 0#1, 3, 255⟩
    let s := { midEncode with hostMoves := [.issue r] }
    s.hostMoves = .issue r :: [] ∧ decode (.hc r) = .ok (.wreg 3 255) ∧
    Instr.wf s.params.lenW (.wreg 3 255) = true := ⟨rfl, rfl, rfl⟩

theorem witness_StepRunsDecoded_refused :
    let r : HostRecord := ⟨0b11#2, 1#1, 0, 0⟩
    let s := { midEncode with hostMoves := [.issue r] }
    s.hostMoves = .issue r :: [] ∧ decode (.hc r) = .error .writeToObuf := ⟨rfl, rfl⟩

theorem witness_IdleKeepsState :
    (∀ st ∈ [Status.idle, .done, .error], st ≠ .busy) ∧ (State.resetWith reference).hostMoves = [] ∧
    ({ State.resetWith reference with hostMoves := [.wait] } : State).hostMoves = .wait :: [] := by decide

theorem witness_ResetEventResets :
    ({ midDecode with hostMoves := [.reset, .wait] } : State).hostMoves = .reset :: [.wait] := rfl

theorem witness_RevInvertsAlpha : (∀ i : Sextet, alpha i ≠ 0x3D#8) ∧
    isAlpha 0x41#8 = true ∧ isAlpha 0x2F#8 = true := by decide

theorem witness_CharacterClasses : alpha 63#6 = alpha 63#6 := rfl

/-- ENC3 with no cell of OBUF to spare. -/
theorem witness_Enc3Result :
    let s := launched { reference with ocap := 4, icap := 3 } .enc [0x4D#8, 0x61#8, 0x6E#8]
    s.status = .busy ∧ s.mode = .enc ∧ s.rp + 3 ≤ s.ilen ∧ s.ilen ≤ s.params.icap ∧
    s.wp + 4 ≤ s.params.ocap ∧ s.groupAt 3 = [0x4D#8, 0x61#8, 0x6E#8] := by decide

theorem witness_Enc2Result :
    let s := launched { reference with ocap := 4, icap := 2 } .enc [0x4D#8, 0x61#8]
    s.status = .busy ∧ s.mode = .enc ∧ s.rp + 2 = s.ilen ∧ s.ilen ≤ s.params.icap ∧
    s.wp + 4 ≤ s.params.ocap ∧ s.groupAt 2 = [0x4D#8, 0x61#8] := by decide

theorem witness_Enc1Result :
    midEncode.status = .busy ∧ midEncode.mode = .enc ∧ midEncode.rp + 1 = midEncode.ilen ∧
    midEncode.ilen ≤ midEncode.params.icap ∧ midEncode.wp + 4 ≤ midEncode.params.ocap ∧
    midEncode.groupAt 1 = [0x62#8] := by decide

theorem witness_HaltResult :
    let e := launched reference .enc []
    let d := launched reference .dec []
    (e.status = .busy ∧ e.rp = e.ilen ∧ e.mode = .enc) ∧
    (d.status = .busy ∧ d.rp = d.ilen ∧ d.mode = .dec) := by decide

theorem witness_EncodeFrame :
    Instr.enc1 ∈ [Instr.enc1, .enc2, .enc3] ∧ (after (exec .enc1 midEncode)).isSome = true ∧
    Instr.dhalt ∈ [Instr.ehalt, .dhalt] ∧
    (after (exec .dhalt (launched reference .dec []))).isSome = true := by decide

/-- "TW*u" under STRICT raises; "TWFu" does not; each is a group DEC4 takes. -/
theorem witness_Dec4Result :
    let grp := [0x54#8, 0x57#8, 0x2A#8, 0x75#8]
    let s := launched (small .truncate .strict 0#6) .dec grp
    let good := [0x54#8, 0x57#8, 0x46#8, 0x75#8]
    let t := launched { small .truncate .strict 0#6 with ocap := 3, icap := 4 } .dec good
    (s.status = .busy ∧ s.mode = .dec ∧ s.rp + 4 ≤ s.ilen ∧ s.ilen ≤ s.params.icap ∧ s.groupAt 4 = grp ∧
      s.params.invalidPolicy = .strict ∧ grp.any isInvalid = true) ∧
    (t.status = .busy ∧ t.mode = .dec ∧ t.rp + 4 ≤ t.ilen ∧ t.ilen ≤ t.params.icap ∧ t.groupAt 4 = good ∧
      ¬ (t.params.invalidPolicy = .strict ∧ good.any isInvalid = true) ∧
      t.wp + tail (effLen t.params good) ≤ t.params.ocap) := by decide

theorem witness_Dec3Result :
    let grp := [0x54#8, 0x57#8, 0x2A#8]
    let s := launched (small .truncate .strict 0#6) .dec grp
    let t := launched { small .passthrough .permissive 0#6 with ocap := 2, icap := 3 } .dec grp
    (s.status = .busy ∧ s.mode = .dec ∧ s.rp + 3 = s.ilen ∧ s.ilen ≤ s.params.icap ∧ s.groupAt 3 = grp ∧
      s.params.invalidPolicy = .strict ∧ grp.any isInvalid = true) ∧
    (t.status = .busy ∧ t.mode = .dec ∧ t.rp + 3 = t.ilen ∧ t.ilen ≤ t.params.icap ∧ t.groupAt 3 = grp ∧
      ¬ (t.params.invalidPolicy = .strict ∧ grp.any isInvalid = true) ∧
      t.wp + tail (effLen t.params grp) ≤ t.params.ocap) := by decide

theorem witness_Dec2Result :
    let grp := [0x2A#8, 0x57#8]
    let s := launched (small .truncate .strict 0#6) .dec grp
    let t := launched { small .passthrough .permissive 0#6 with ocap := 1, icap := 2 } .dec grp
    (s.status = .busy ∧ s.mode = .dec ∧ s.rp + 2 = s.ilen ∧ s.ilen ≤ s.params.icap ∧ s.groupAt 2 = grp ∧
      s.params.invalidPolicy = .strict ∧ grp.any isInvalid = true) ∧
    (t.status = .busy ∧ t.mode = .dec ∧ t.rp + 2 = t.ilen ∧ t.ilen ≤ t.params.icap ∧ t.groupAt 2 = grp ∧
      ¬ (t.params.invalidPolicy = .strict ∧ grp.any isInvalid = true) ∧
      t.wp + tail (effLen t.params grp) ≤ t.params.ocap) := by decide

theorem witness_Dec1Result :
    let t := launched { reference with ocap := 0, icap := 1 } .dec [0x2A#8]
    (midDecode.status = .busy ∧ midDecode.mode = .dec ∧ midDecode.rp + 1 = midDecode.ilen ∧
      midDecode.ilen ≤ midDecode.params.icap ∧ midDecode.wp ≤ midDecode.params.ocap ∧
      midDecode.groupAt 1 = [0x2A#8] ∧ midDecode.params.invalidPolicy = .strict ∧
      isInvalid 0x2A#8 = true) ∧
    (t.status = .busy ∧ t.mode = .dec ∧ t.rp + 1 = t.ilen ∧ t.ilen ≤ t.params.icap ∧
      t.wp ≤ t.params.ocap ∧ t.groupAt 1 = [0x2A#8] ∧
      ¬ (t.params.invalidPolicy = .strict ∧ isInvalid 0x2A#8 = true)) := by decide

theorem witness_EmittedCount :
    reference.padMode = .passthrough ∧ (small .truncate .strict 0#6).padMode = .truncate ∧
    (∀ c ∈ [0x54#8, 0x57#8, 0x46#8, 0x75#8], isPad c = false) := by decide

/-- The offender is the only character of a DEC1 group, and the last of a DEC4 group. -/
theorem witness_ExceptionEntry :
    let grp := [0x54#8, 0x57#8, 0x3D#8, 0x2A#8]
    let s := launched (small .truncate .strict 0#6) .dec grp
    ((Instr.dec4, 4) ∈ [(Instr.dec1, 1), (.dec2, 2), (.dec3, 3), (.dec4, 4)] ∧ s.Selects .dec 4 ∧
      s.ilen ≤ s.params.icap ∧ s.params.invalidPolicy = .strict ∧
      s.groupAt 4 = [0x54#8, 0x57#8, 0x3D#8] ++ 0x2A#8 :: [] ∧
      (∀ x ∈ [0x54#8, 0x57#8, 0x3D#8], isInvalid x = false) ∧ isInvalid 0x2A#8 = true) ∧
    (midDecode.Selects .dec 1 ∧ midDecode.ilen ≤ midDecode.params.icap ∧
      midDecode.groupAt 1 = [] ++ 0x2A#8 :: []) := by decide

theorem witness_ExceptionOnlyStrictDecode :
    (after (step midDecode)).map (fun t => t.status) = some .error ∧ midDecode.status ≠ .error := by
  decide

theorem witness_DecodeFrame :
    Instr.dec1 ∈ [Instr.dec1, .dec2, .dec3, .dec4] ∧ (after (exec .dec1 midDecode)).isSome = true ∧
    (after (exec .dec4 (launched reference .dec [0x54#8, 0x57#8, 0x46#8, 0x75#8]))).isSome = true := by
  decide

/-- A buffer that differs only at ILEN. -/
theorem witness_InputBeyondIlenIrrelevant :
    Instr.enc1 ∈ blockOperations ∧
    (∀ a, a < midEncode.ilen → (midEncode.ibuf.write 4 0xFF#8).read a = midEncode.ibuf.read a) ∧
    midEncode.ibuf.write 4 0xFF#8 ≠ midEncode.ibuf ∧
    (after (exec .enc1 midEncode)).isSome = true := by decide

theorem witness_RregReturns : 7 < 8 := by decide

theorem witness_WregEffects :
    2 % 2 = 0 ∧ (State.resetWith reference).status ≠ .busy ∧ midEncode.status = .busy ∧
    3 ∈ [2, 3] ∧ 7 ∈ [1, 4, 5, 6, 7] ∧ 7 < 8 := by decide

/-- BUSY with register number 8. -/
theorem witness_WregEffects_busy : midEncode.status = .busy ∧ 7 < 8 := by decide

/-- A START that just fits: ICAP = ILEN and OCAP = OutMax. -/
theorem witness_StartLaunches :
    let s := { State.resetWith { reference with icap := 8, ocap := 6 } with mode := .dec, ilen := 8 }
    3 % 2 = 1 ∧ midEncode.status = .busy ∧
    s.status ≠ .busy ∧ s.ilen ≤ s.params.icap ∧ outMax s.mode s.ilen ≤ s.params.ocap := by decide

/-- One cell too many on either side. -/
theorem witness_StartBeyondCapacityRefused :
    let s := { State.resetWith { reference with icap := 8, ocap := 5 } with mode := .dec, ilen := 8 }
    let t := { State.resetWith reference with ilen := 17 }
    1 % 2 = 1 ∧ s.status ≠ .busy ∧ s.params.ocap < outMax s.mode s.ilen ∧
    t.status ≠ .busy ∧ t.params.icap < t.ilen := by decide

theorem witness_RbufReturns :
    let s := { State.resetWith reference with
      status := .done, wp := 4, ibuf := [(15, 0x4D#8)],
      obuf := Memory.writeCells [] 0 [0x54#8, 0x57#8, 0x46#8, 0x75#8] }
    (s.status ≠ .busy ∧ 15 < s.params.icap ∧ s.ibuf.read 15 = some 0x4D#8) ∧
    (3 < s.params.ocap ∧ 3 < s.wp ∧ s.obuf.read 3 = some 0x75#8) ∧
    (0 < s.params.icap ∧ s.ibuf.read 0 = none) ∧ (4 < s.params.ocap ∧ s.wp ≤ 4) ∧
    (midEncode.status = .busy ∧ 15 < midEncode.params.icap ∧ 15 < midEncode.params.ocap) ∧
    s.params.icap ≤ 16 ∧ s.params.ocap ≤ 16 := by decide

/-- BUSY with the index at the capacity, of either buffer (entry 13). -/
theorem witness_RbufReturns_busy : midEncode.status = .busy ∧
    (∀ sel ∈ [BufSel.ibuf, .obuf],
      (if sel = .ibuf then midEncode.params.icap else midEncode.params.ocap) ≤ 16) := by decide

theorem witness_WbufEffects :
    (State.resetWith reference).status ≠ .busy ∧ 15 < reference.icap ∧ midEncode.status = .busy ∧
    15 < midEncode.params.icap ∧ reference.icap ≤ 16 := by decide

/-- BUSY with the index at ICAP (entry 13). -/
theorem witness_WbufEffects_busy : midEncode.status = .busy ∧ midEncode.params.icap = 16 := by decide

theorem witness_BusyIgnoresHost :
    midEncode.status = .busy ∧ isHostCommand (.wreg 0 1) = true ∧ isHostCommand (.wbuf 0 0#8) = true := by
  decide

theorem witness_HostFrame :
    isHostCommand (.wbuf 0 0x41#8) = true ∧
    (after (exec (.wbuf 0 0x41#8) (State.resetWith reference))).isSome = true ∧
    (∀ v ∈ [0, 1], Instr.wbuf 0 0x41#8 ≠ .wreg 0 v) := by decide

theorem witness_StepKeepsInvariant : midEncode.Inv ∧ (after (step midEncode)).isSome = true ∧
    midDecode.Inv ∧ (after (step midDecode)).isSome = true :=
  ⟨midEncode_inv, by decide, midDecode_inv, by decide⟩

theorem witness_ResetMeetsInvariant : reference.Valid ∧
    Params.Valid { reference with lenW := 2, icap := 3, ocap := 3 } := by decide

theorem witness_StepKeepsBuffersCanonical :
    midEncode.ibuf.Canonical ∧ midEncode.obuf.Canonical ∧ (after (step midEncode)).isSome = true := by
  decide

theorem witness_StepKeepsParams : (after (step midDecode)).isSome = true := by decide

/-- Each of the four ways STATUS changes. -/
theorem witness_StatusChanges :
    let start := { State.resetWith reference with hostMoves := [.issue ⟨1#2, 0#1, 0, 1⟩] }
    (after (step { midEncode with hostMoves := [.reset] })).map (fun t => t.status) = some .idle ∧
    (after (step start)).map (fun t => t.status) = some .busy ∧
    (after (step (launched reference .enc []))).map (fun t => t.status) = some .done ∧
    (after (step midDecode)).map (fun t => t.status) = some .error := by decide

theorem witness_MarkIsSticky :
    (after (step midEncode)).map (fun t => decide t.Unmarked) = some true := by decide

theorem witness_BlockStepProgress : midEncode.Inv ∧ midEncode.status = .busy ∧ midEncode.hostMoves = [] :=
  ⟨midEncode_inv, rfl, rfl⟩

theorem witness_DecodeByGroups : ([] : List Byte) = [] ∧ [0x54#8] ≠ [] := by decide

theorem witness_EncodeConcat : [0x4D#8, 0x61#8, 0x6E#8].length % 3 = 0 := by decide

theorem witness_EncodeInjective :
    encodeBytes [0x4D#8] = [0x54#8, 0x51#8, 0x3D#8, 0x3D#8] ∧ encodeBytes [] = [] := by decide

theorem witness_DecodeLength :
    decodeChars reference [0x54#8, 0x57#8] = .ok [0x4D#8] ∧ reference.padMode = .passthrough ∧
    reference.invalidPolicy = .permissive := by decide

theorem witness_RoundTripTruncate : (small .truncate .strict 63#6).padMode = .truncate := rfl

theorem witness_RoundTripPassthrough : (small .passthrough .strict 63#6).padMode = .passthrough := rfl

theorem witness_WellFormedIffEncoded :
    wellFormedText [0x54#8, 0x51#8, 0x3D#8, 0x3D#8] = true ∧
    encodeBytes [0x4D#8] = [0x54#8, 0x51#8, 0x3D#8, 0x3D#8] ∧
    wellFormedText [0x54#8, 0x57#8, 0x3D#8, 0x3D#8] = false := by decide

theorem witness_EncodeAfterDecode :
    [0x54#8, 0x57#8, 0x46#8, 0x75#8].length % 4 = 0 ∧
    (∀ c ∈ [0x54#8, 0x57#8, 0x46#8, 0x75#8], isAlpha c = true) := by decide

theorem witness_RunComputesCodec :
    let s := launched reference .enc [0x4D#8]
    s.Launched ∧ s.hostMoves = [] ∧ s.InputIs [0x4D#8] ∧ s.runLength [0x4D#8] = 2 :=
  ⟨launched_launched, rfl, launched_input _ _ _, by decide⟩

/-- A run of DEC under STRICT on "TWFu*", which ends in its second step. -/
theorem witness_RunComputesCodec_error :
    let xs := [0x54#8, 0x57#8, 0x46#8, 0x75#8, 0x2A#8]
    let s := launched (small .truncate .strict 0#6) .dec xs
    s.Launched ∧ s.hostMoves = [] ∧ s.InputIs xs ∧ s.runLength xs = 2 :=
  ⟨by decide, rfl, launched_input _ _ _, by decide⟩

/-- A launched run on one byte whose host writes a register in the middle. -/
def interleaved : State :=
  { launched reference .enc [0x4D#8] with hostMoves := [.wait, .issue ⟨1#2, 0#1, 2, 1⟩] }

/-- The run of `interleaved`: ENC1, the ignored write of MODE, EHALT. -/
theorem witness_RunResultUnderInterleaving :
    interleaved.Launched ∧ interleaved.InputIs [0x4D#8] ∧ HostMove.reset ∉ interleaved.hostMoves ∧
    ∃ t, Sys2Proof.core.run 3 interleaved = .next t ∧
      (∀ k u, k < 3 → Sys2Proof.core.run k interleaved = .next u → u.status = .busy) ∧
      t.status ≠ .busy := by
  refine ⟨by decide, ⟨rfl, filled_holds _⟩, by decide, _, rfl, ?_, by decide⟩
  intro k u hk h
  match k, hk, h with
  | 0, _, h => cases h; rfl
  | 1, _, h => cases h; rfl
  | 2, _, h => cases h; rfl

/-- Two runs on the same byte, with and without a host that interferes, in instances of different size. -/
theorem witness_RunDependsOnInputOnly :
    let s := interleaved
    let s' := launched { reference with icap := 1, ocap := 4 } .enc [0x4D#8]
    s.Launched ∧ s'.Launched ∧ s.InputIs [0x4D#8] ∧ s'.InputIs [0x4D#8] ∧ s'.mode = s.mode ∧
    s'.params.padMode = s.params.padMode ∧ s'.params.invalidPolicy = s.params.invalidPolicy ∧
    s'.params.revDefault = s.params.revDefault ∧
    HostMove.reset ∉ s.hostMoves ∧ HostMove.reset ∉ s'.hostMoves ∧
    ∃ t t', Sys2Proof.core.run 3 s = .next t ∧ Sys2Proof.core.run 2 s' = .next t' ∧
      (∀ k u, k < 3 → Sys2Proof.core.run k s = .next u → u.status = .busy) ∧
      (∀ k u, k < 2 → Sys2Proof.core.run k s' = .next u → u.status = .busy) ∧
      t.status ≠ .busy ∧ t'.status ≠ .busy := by
  refine ⟨by decide, by decide, ⟨rfl, filled_holds _⟩, ⟨rfl, filled_holds _⟩, rfl, rfl, rfl, rfl,
    by decide, by decide, _, _, rfl, rfl, ?_, ?_, by decide, by decide⟩
  · intro k u hk h
    match k, hk, h with
    | 0, _, h => cases h; rfl
    | 1, _, h => cases h; rfl
    | 2, _, h => cases h; rfl
  · intro k u hk h
    match k, hk, h with
    | 0, _, h => cases h; rfl
    | 1, _, h => cases h; rfl

theorem witness_EveryRunEnds :
    let s := { midEncode with hostMoves := [.issue ⟨1#2, 0#1, 2, 1⟩, .pollStatus, .readOutput] }
    s.Inv ∧ s.status = .busy ∧ HostMove.reset ∉ s.hostMoves ∧
    (∀ r, HostMove.issue r ∈ s.hostMoves →
      ∃ i, decode (.hc r) = .ok i ∧ i.wf s.params.lenW = true) := by
  refine ⟨midEncode_inv.sameBlock ⟨rfl, rfl, rfl, rfl, rfl, rfl, rfl, rfl, rfl⟩, rfl, by decide, ?_⟩
  intro r hr
  simp only [List.mem_cons, HostMove.issue.injEq, reduceCtorEq, List.not_mem_nil, or_false] at hr
  subst hr
  exact ⟨.wreg 2 1, rfl, by decide⟩

theorem witness_HostActsOnReplies :
    let s := { midEncode with hostMoves := [.pollStatus, .readOutput] }
    let t := { State.resetWith reference with hostMoves := [.pollStatus] }
    let u := { midEncode with hostMoves := [.readOutput] }
    (s.hostMoves = .pollStatus :: [.readOutput] ∧ s.status = .busy) ∧
    (t.hostMoves = .pollStatus :: [] ∧ t.status ≠ .busy) ∧ u.hostMoves = .readOutput :: [] := by decide

/-- A call that just fits: ICAP is the length of the text, OCAP that of the longest result. -/
theorem witness_CallDeliversResult :
    let xs := [0x54#8, 0x57#8, 0x46#8, 0x75#8, 0x2A#8]
    let s := { State.resetWith { small .truncate .strict 0#6 with icap := 5, ocap := 3 } with
      hostMoves := pseudoCall .dec xs }
    s.params.Valid ∧ s.status ≠ .busy ∧ xs.length ≤ s.params.icap ∧
    outMax .dec xs.length ≤ s.params.ocap ∧ s.hostMoves = pseudoCall .dec xs := by decide

end Sys2Proof.Tests
end

section
/-! Proofs of the obligations about the state after reset (10_state.md R40) and the alphabet ROM (R30). -/

namespace Sys2Proof.Proofs

open Sys2Proof.Machine

/-! ## The state after reset -/

/-- CAUSE is computed from STATUS, which is IDLE after reset (R28, R40). -/
@[simp] theorem cause_resetWith (p : Params) : (State.resetWith p).cause = 0#2 := rfl

/-- The sizes of the instance of log entry 2 meet the constraints of R9. -/
theorem reference_valid : Config.reference.Valid := by decide

/-- Settles O8: the register values are those of `State.resetWith`, the empty buffers list no cell, and the
legal instance is `Config.reference`. -/
theorem resetValues : Obligations.ResetValues := by
  unfold Obligations.ResetValues
  refine ⟨fun p => ?registers, Config.reference, reference_valid, rfl⟩
  case registers => simp

/-! ## The alphabet ROM

The table is three blocks: the upper case letters, the lower case letters, and the ten digits with the two
signs. The letters and the digits are consecutive codes, so an entry is its block's first code plus the
index's distance from the block's first index. -/

/-- The first block: codes from 'A'. -/
theorem toNat_alphaUpper_getD : ∀ k < 26, (alphaUpper.getD k 0#8).toNat = 0x41 + k := by decide

/-- The second block: codes from 'a'. -/
theorem toNat_alphaLower_getD : ∀ k < 26, (alphaLower.getD k 0#8).toNat = 0x61 + k := by decide

/-- The digits of the third block: codes from '0'. -/
theorem toNat_alphaDigits_getD : ∀ k < 10, (alphaDigits.getD k 0#8).toNat = 0x30 + k := by decide

theorem alpha_eq_alphaUpper {i : Sextet} (h : i.toNat < 26) : alpha i = alphaUpper.getD i.toNat 0#8 := by
  rw [alpha, alphaTable, List.append_assoc, List.getD_append _ _ _ _ h]

theorem alpha_eq_alphaLower {i : Sextet} (hlo : 26 ≤ i.toNat) (hhi : i.toNat < 52) :
    alpha i = alphaLower.getD (i.toNat - 26) 0#8 := by
  have hin : i.toNat - 26 < alphaLower.length := by simp only [alphaLower, List.length]; omega
  rw [alpha, alphaTable, List.append_assoc, List.getD_append_right _ _ _ _ hlo]
  exact List.getD_append _ _ _ _ hin

theorem alpha_eq_alphaDigits {i : Sextet} (h : 52 ≤ i.toNat) :
    alpha i = alphaDigits.getD (i.toNat - 52) 0#8 := by
  rw [alpha, alphaTable]
  exact List.getD_append_right _ _ _ _ h

theorem toNat_alpha_of_upper {i : Sextet} (h : i.toNat < 26) : (alpha i).toNat = 0x41 + i.toNat := by
  rw [alpha_eq_alphaUpper h, toNat_alphaUpper_getD _ h]

theorem toNat_alpha_of_lower {i : Sextet} (hlo : 26 ≤ i.toNat) (hhi : i.toNat < 52) :
    (alpha i).toNat = 0x61 + (i.toNat - 26) := by
  rw [alpha_eq_alphaLower hlo hhi, toNat_alphaLower_getD _ (by omega)]

theorem toNat_alpha_of_digit {i : Sextet} (hlo : 52 ≤ i.toNat) (hhi : i.toNat < 62) :
    (alpha i).toNat = 0x30 + (i.toNat - 52) := by
  rw [alpha_eq_alphaDigits hlo, toNat_alphaDigits_getD _ (by omega)]

/-- Entry 62, '+'. -/
theorem toNat_alpha_of_eq_62 {i : Sextet} (h : i.toNat = 62) : (alpha i).toNat = 0x2B := by
  rw [alpha_eq_alphaDigits (by omega), h]; rfl

/-- Entry 63, '/'. -/
theorem toNat_alpha_of_eq_63 {i : Sextet} (h : i.toNat = 63) : (alpha i).toNat = 0x2F := by
  rw [alpha_eq_alphaDigits (by omega), h]; rfl

/-- Settles O10, range by range; an index above 62 is 63, since a sextet is below 64. -/
theorem alphaClosedForm : Obligations.AlphaClosedForm := by
  unfold Obligations.AlphaClosedForm
  intro i
  have hi : i.toNat < 64 := i.isLt
  split_ifs with hupper hlower hdigit hplus
  · exact toNat_alpha_of_upper (by omega)
  · exact toNat_alpha_of_lower (by omega) (by omega)
  · exact toNat_alpha_of_digit (by omega) (by omega)
  · exact toNat_alpha_of_eq_62 hplus
  · exact toNat_alpha_of_eq_63 (by omega)

end Sys2Proof.Proofs
end

section
/-! Proof of the obligation about the block descriptor (30_encoding.md R96): its number is eight times the
mode bit plus the group count, since the count is at most 4 and so fits in its three bits. -/

namespace Sys2Proof.Proofs

open Sys2Proof.Machine

/-- MODE as a number: 0 is ENC, 1 is DEC (R21). -/
theorem toNat_modeBit (m : Mode) : m.bit.toNat = if m = .dec then 1 else 0 := by
  cases m <;> rfl

/-- `W` of R96 by a test on the mode. -/
theorem groupWidth_eq (m : Mode) : groupWidth m = if m = .enc then 3 else 4 := by
  cases m <;> rfl

theorem groupWidth_le_four (m : Mode) : groupWidth m ≤ 4 := by
  cases m <;> decide

theorem groupCount_le_four (s : State) : s.groupCount ≤ 4 :=
  (Nat.min_le_left _ _).trans (groupWidth_le_four s.mode)

/-- The count fits in the 3-bit field of the descriptor. -/
theorem groupCount_lt (s : State) : s.groupCount < 2 ^ 3 :=
  (groupCount_le_four s).trans_lt (by decide)

/-- `cat(MODE, cnt)` as a number. -/
theorem toNat_descriptor (s : State) : s.descriptor.toNat = 8 * s.mode.bit.toNat + s.groupCount := by
  calc s.descriptor.toNat
      = s.mode.bit.toNat <<< 3 ||| s.groupCount := by
        rw [State.descriptor, BitVec.toNat_append, BitVec.toNat_ofNat,
          Nat.mod_eq_of_lt (groupCount_lt s)]
    _ = s.mode.bit.toNat <<< 3 + s.groupCount := (Nat.shiftLeft_add_eq_or_of_lt (groupCount_lt s) _).symm
    _ = 8 * s.mode.bit.toNat + s.groupCount := by rw [Nat.shiftLeft_eq, Nat.mul_comm]

/-- Settles O1: the descriptor's number is `toNat_descriptor`, and each row of the table is the code the
encoder gives its operation, which decodes to it. -/
theorem descriptorSelectsOperation : Obligations.DescriptorSelectsOperation := by
  unfold Obligations.DescriptorSelectsOperation
  refine ⟨fun s => ?number, ?rows⟩
  case number => rw [toNat_descriptor, toNat_modeBit, State.groupCount, groupWidth_eq]
  case rows =>
    open Laws.RoundTrip in
    exact ⟨ehalt, enc1, enc2, enc3, dhalt, dec1, dec2, dec3, dec4⟩

end Sys2Proof.Proofs
end

section
/-! Proofs of the obligations about the encoder operations (40_encoder.md R121 to R123). Each is one use of
`exec_completes_of_emit`: the sequencer selects the operation, its group is the bytes named, and the four
cells it yields fit in OBUF. -/

namespace Sys2Proof.Proofs

open Sys2Proof.Machine

/-- The sequencer selects a group of `cnt` cells when it is a full group, or when no more than these cells
are left (R96: `cnt = min(W, ILEN - RP)`). -/
theorem selects_of_full_or_last {s : State} {m : Mode} {cnt : Nat} (hbusy : s.status = .busy)
    (hmode : s.mode = m) (hcells : s.rp + cnt ≤ s.ilen)
    (hcnt : cnt = groupWidth m ∨ cnt ≤ groupWidth m ∧ s.rp + cnt = s.ilen) : s.Selects m cnt := by
  refine ⟨hbusy, hmode, by omega, ?count⟩
  case count =>
    rw [State.groupCount, hmode]
    omega

/-- A full group of three bytes (R96). -/
theorem selects_enc_full {s : State} (hbusy : s.status = .busy) (hmode : s.mode = .enc)
    (hcells : s.rp + 3 ≤ s.ilen) : s.Selects .enc 3 :=
  selects_of_full_or_last hbusy hmode hcells (.inl rfl)

/-- The final group of an encode run (R96): the one or two bytes left. -/
theorem selects_enc_final {s : State} {cnt : Nat} (hbusy : s.status = .busy) (hmode : s.mode = .enc)
    (hle : cnt ≤ 3) (hlast : s.rp + cnt = s.ilen) : s.Selects .enc cnt :=
  selects_of_full_or_last hbusy hmode hlast.le (.inr ⟨hle, hlast⟩)

/-- A selected operation on a group inside IBUF completes with the cells its pure operation yields, when
they fit in OBUF: the group at RP is fetched, the cells are written at WP, both pointers move (R180). -/
theorem exec_completes_of_emit {i : Instr} {m : Mode} {cnt : Nat} {op : Params → List Byte → GroupResult}
    {s : State} {grp out : List Byte} (hi : groupOperation i = some (m, cnt, op))
    (hsel : s.Selects m cnt) (hicap : s.ilen ≤ s.params.icap) (hgrp : s.groupAt cnt = grp)
    (hop : op s.params grp = .emit out) (hocap : s.wp + out.length ≤ s.params.ocap) :
    ∃ d, exec i s = .next ((s.withDraws d).advance cnt out) := by
  subst hgrp
  exact ⟨_, (exec_groupOperation hi s).trans
    (blockOperation_emit hsel (hsel.group_le.trans hicap) hop hocap)⟩

/-- Settles O15: the cells that R121 writes out are `enc3Out b0 b1 b2`. -/
theorem enc3Result : Obligations.Enc3Result := by
  unfold Obligations.Enc3Result
  intro s b0 b1 b2 hbusy hmode hcells hicap hocap hgrp
  have hop : enc3Group s.params [b0, b1, b2] = .emit (enc3Out b0 b1 b2) := rfl
  exact exec_completes_of_emit rfl (selects_enc_full hbusy hmode hcells) hicap hgrp hop hocap

/-- Settles O16: the cells that R122 writes out are `enc2Out b0 b1`. -/
theorem enc2Result : Obligations.Enc2Result := by
  unfold Obligations.Enc2Result
  intro s b0 b1 hbusy hmode hlast hicap hocap hgrp
  have hop : enc2Group s.params [b0, b1] = .emit (enc2Out b0 b1) := rfl
  exact exec_completes_of_emit rfl (selects_enc_final hbusy hmode (by decide) hlast) hicap hgrp hop hocap

/-- Settles O17: the cells that R123 writes out are `enc1Out b0`. -/
theorem enc1Result : Obligations.Enc1Result := by
  unfold Obligations.Enc1Result
  intro s b0 hbusy hmode hlast hicap hocap hgrp
  have hop : enc1Group s.params [b0] = .emit (enc1Out b0) := rfl
  exact exec_completes_of_emit rfl (selects_enc_final hbusy hmode (by decide) hlast) hicap hgrp hop hocap

end Sys2Proof.Proofs
end

section
/-! Proofs of the obligations about the decoder operations (41_decoder.md R141 to R144). What DEC1 to DEC4
share is said once: a selected operation raises under STRICT (`exec_decoder_raises`), and otherwise emits the
first `Tail(eff)` of the reconstructed bytes (`exec_decoder_emits`). -/

namespace Sys2Proof.Proofs

open Sys2Proof.Machine

/-- A full group of four characters (R96). -/
theorem selects_dec_full {s : State} (hbusy : s.status = .busy) (hmode : s.mode = .dec)
    (hcells : s.rp + 4 ≤ s.ilen) : s.Selects .dec 4 :=
  selects_of_full_or_last hbusy hmode hcells (.inl rfl)

/-- The trailing group of a decode run (R96): the one to three characters left. -/
theorem selects_dec_trailing {s : State} {cnt : Nat} (hbusy : s.status = .busy) (hmode : s.mode = .dec)
    (hle : cnt ≤ 4) (hlast : s.rp + cnt = s.ilen) : s.Selects .dec cnt :=
  selects_of_full_or_last hbusy hmode hlast.le (.inr ⟨hle, hlast⟩)

@[simp] theorem groupAt_length (s : State) (n : Nat) : (s.groupAt n).length = n :=
  fetchCells_length s.ibuf s.draws s.rp n

/-- `Tail(eff)` never exceeds the number of reconstructed bytes, so the prefix has exactly that length. -/
theorem length_take_reconstruct (p : Params) {grp : List Byte} (hlen : grp.length ≤ 4) :
    ((reconstruct p.revDefault grp).take (tail (effLen p grp))).length = tail (effLen p grp) := by
  refine List.length_take_of_le ?_
  rw [reconstruct_length _ hlen]
  exact tail_mono (effLen_le p grp)

/-- One character yields no byte, in either PAD_MODE (R144). -/
theorem tail_effLen_singleton (p : Params) (c : Byte) : tail (effLen p [c]) = 0 :=
  Nat.le_zero.mp (tail_mono (effLen_le p [c]))

section
variable {i : Instr} {cnt : Nat} {op : Params → List Byte → GroupResult} {s : State} {grp : List Byte}

/-- The exception of a selected decoder operation (R148, R204): ERRIDX is the index of the lowest invalid
character. -/
theorem exec_decoder_raises (hi : groupOperation i = some (.dec, cnt, op)) (hsel : s.Selects .dec cnt)
    (hicap : s.ilen ≤ s.params.icap) (hgrp : s.groupAt cnt = grp)
    (hbad : s.params.invalidPolicy = .strict ∧ grp.any isInvalid = true) :
    ∃ d, exec i s =
      .next { s with status := .error, errIdx := s.rp + grp.findIdx isInvalid, draws := d } := by
  subst hgrp
  have hop : op s.params (s.groupAt cnt) = .invalid ((s.groupAt cnt).findIdx isInvalid) :=
    (decoderGroup_eq hi _ (groupAt_length s cnt)).trans (checkedEmit_invalid hbad)
  exact ⟨_, (exec_groupOperation hi s).trans
    (blockOperation_invalid hsel (hsel.group_le.trans hicap) hop)⟩

/-- The completion of a selected decoder operation (R140, R145, R180): `Tail(eff)` bytes at WP, and both
pointers move. -/
theorem exec_decoder_emits (hi : groupOperation i = some (.dec, cnt, op)) (hsel : s.Selects .dec cnt)
    (hicap : s.ilen ≤ s.params.icap) (hgrp : s.groupAt cnt = grp)
    (hgood : ¬ (s.params.invalidPolicy = .strict ∧ grp.any isInvalid = true))
    (hocap : s.wp + tail (effLen s.params grp) ≤ s.params.ocap) :
    ∃ d, exec i s = .next
      { s with
        obuf := s.obuf.writeCells s.wp
          ((reconstruct s.params.revDefault grp).take (tail (effLen s.params grp)))
        rp := s.rp + cnt
        wp := s.wp + tail (effLen s.params grp)
        draws := d } := by
  have hcnt : grp.length = cnt := hgrp ▸ groupAt_length s cnt
  have hlen := length_take_reconstruct s.params (hcnt.trans_le (groupOperation_count hi).2)
  have hop := (decoderGroup_eq hi s.params hcnt).trans (checkedEmit_emit hgood)
  obtain ⟨d, hexec⟩ := exec_completes_of_emit hi hsel hicap hgrp hop (by rwa [hlen])
  refine ⟨d, hexec.trans ?_⟩
  simp only [State.advance, State.withDraws, hlen]

end

/-- Settles O20: the three bytes that R141 writes out are `reconstruct` of the group. -/
theorem dec4Result : Obligations.Dec4Result := by
  unfold Obligations.Dec4Result
  intro s c1 c2 c3 c4 hbusy hmode hcells hicap hgrp
  have hsel := selects_dec_full hbusy hmode hcells
  exact ⟨exec_decoder_raises (i := .dec4) rfl hsel hicap hgrp,
    exec_decoder_emits (i := .dec4) rfl hsel hicap hgrp⟩

/-- Settles O21: the two bytes that R142 writes out are `reconstruct` of the group. -/
theorem dec3Result : Obligations.Dec3Result := by
  unfold Obligations.Dec3Result
  intro s c1 c2 c3 hbusy hmode hlast hicap hgrp
  have hsel := selects_dec_trailing hbusy hmode (by decide) hlast
  exact ⟨exec_decoder_raises (i := .dec3) rfl hsel hicap hgrp,
    exec_decoder_emits (i := .dec3) rfl hsel hicap hgrp⟩

/-- Settles O22: the byte that R143 writes out is `reconstruct` of the group. -/
theorem dec2Result : Obligations.Dec2Result := by
  unfold Obligations.Dec2Result
  intro s c1 c2 hbusy hmode hlast hicap hgrp
  have hsel := selects_dec_trailing hbusy hmode (by decide) hlast
  exact ⟨exec_decoder_raises (i := .dec2) rfl hsel hicap hgrp,
    exec_decoder_emits (i := .dec2) rfl hsel hicap hgrp⟩

/-- Settles O23: the only character is the lowest invalid one, at offset 0 of the group; otherwise no byte
is emitted, so OBUF and WP stay. -/
theorem dec1Result : Obligations.Dec1Result := by
  unfold Obligations.Dec1Result
  intro s c1 hbusy hmode hlast hicap hocap hgrp
  have hsel := selects_dec_trailing hbusy hmode (by decide) hlast
  have hany : [c1].any isInvalid = isInvalid c1 := by simp
  refine ⟨fun hbad => ?raises, fun hgood => ?drops⟩
  case raises =>
    have hpos : [c1].findIdx isInvalid = 0 := by simp [hbad.2]
    simpa [hpos] using exec_decoder_raises (i := .dec1) rfl hsel hicap hgrp (by rwa [hany])
  case drops =>
    have hk := tail_effLen_singleton s.params c1
    simpa [hk] using exec_decoder_emits (i := .dec1) rfl hsel hicap hgrp (by rwa [hany]) (by rwa [hk])

end Sys2Proof.Proofs
end

section
/-! Proofs of the obligations about the halting steps and the launch of a run (42_sequencer_and_host.md
R177, R178, R182). -/

namespace Sys2Proof.Proofs

open Sys2Proof.Machine

/-! ## The halting steps -/

/-- At the end of the input no cell is left, so the sequencer selects the group of none (R96, R182). -/
theorem selects_halt {s : State} {m : Mode} (hbusy : s.status = .busy) (hmode : s.mode = m)
    (hend : s.rp = s.ilen) : s.Selects m 0 :=
  selects_of_full_or_last hbusy hmode hend.le (.inr ⟨Nat.zero_le _, hend⟩)

/-- Settles O18: in either mode the sequencer selects the halting step, and a selected one is `State.halt`. -/
theorem haltResult : Obligations.HaltResult := by
  unfold Obligations.HaltResult
  intro s hbusy hend
  refine ⟨fun henc => ?ehalt, fun hdec => ?dhalt⟩
  case ehalt => exact haltOperation_selected (selects_halt hbusy henc hend)
  case dhalt => exact haltOperation_selected (selects_halt hbusy hdec hend)

/-! ## START -/

/-- A write of CTRL with bit 0 set is START (R173, R177). -/
theorem exec_wreg_ctrl_of_odd {v : Nat} (hv : v % 2 = 1) (s : State) :
    exec (.wreg 0 v) s = .next s.start :=
  congrArg Host.Outcome.next (if_pos hv)

/-- START is ignored while BUSY (R177). -/
theorem start_of_busy {s : State} (hbusy : s.status = .busy) : s.start = s.answer none :=
  if_pos hbusy

/-- START launches a run when the block is not BUSY and the launch premise holds (R177, R178). -/
theorem start_of_launchPremise {s : State} (hnotBusy : s.status ≠ .busy) (hpremise : s.LaunchPremise) :
    s.start = s.launch.answer none :=
  (if_neg hnotBusy).trans (if_pos hpremise)

/-- Settles O31: the write is START, whose outcome is `State.answer` while BUSY and `State.launch` within
the capacities. -/
theorem startLaunches : Obligations.StartLaunches := by
  unfold Obligations.StartLaunches
  intro s v hv
  rw [exec_wreg_ctrl_of_odd hv]
  refine ⟨fun hbusy => ?busy, fun hnotBusy hicap hocap => ?launch⟩
  case busy => exact ⟨none, congrArg Host.Outcome.next (start_of_busy hbusy)⟩
  case launch => exact ⟨none, congrArg Host.Outcome.next (start_of_launchPremise hnotBusy ⟨hicap, hocap⟩)⟩

end Sys2Proof.Proofs
end

section
/-! Proof of the obligation about taking the exception (60_exceptions.md R204). The exception of a selected
decoder operation is `exec_decoder_raises`; what is added is that ERRIDX, written there as the index of the
lowest invalid character, is the number of characters that stand before it. -/

namespace Sys2Proof.Proofs

open Sys2Proof.Machine

/-- CAUSE reads 1 (`InvalidCharacter`) in every ERROR state (R28). -/
theorem cause_of_error {s : State} (h : s.status = .error) : s.cause = 1#2 := by
  simp only [State.cause, h]

/-- The lowest index that meets `p` is the length of the part before it. -/
theorem findIdx_append_cons {α : Type} {p : α → Bool} {before after : List α} {c : α}
    (hbefore : ∀ x ∈ before, p x = false) (hc : p c = true) :
    (before ++ c :: after).findIdx p = before.length := by
  have hnone : before.findIdx p = before.length := List.findIdx_eq_length.mpr hbefore
  simp [List.findIdx_append, List.findIdx_cons, hnone, hc]

/-- DEC1 to DEC4 are group operations of DEC mode, each on its own number of characters (R140). -/
theorem groupOperation_of_decoder {i : Instr} {cnt : Nat}
    (h : (i, cnt) ∈ [(Instr.dec1, 1), (.dec2, 2), (.dec3, 3), (.dec4, 4)]) :
    ∃ op, groupOperation i = some (.dec, cnt, op) := by
  simp only [List.mem_cons, Prod.mk.injEq, List.not_mem_nil, or_false] at h
  obtain ⟨rfl, rfl⟩ | ⟨rfl, rfl⟩ | ⟨rfl, rfl⟩ | ⟨rfl, rfl⟩ := h
  · exact ⟨dec1Group, rfl⟩
  · exact ⟨dec2Group, rfl⟩
  · exact ⟨dec3Group, rfl⟩
  · exact ⟨dec4Group, rfl⟩

/-- Settles O25: the group holds an invalid character, so the selected operation raises, and the lowest one
stands after the characters of `before`. -/
theorem exceptionEntry : Obligations.ExceptionEntry := by
  unfold Obligations.ExceptionEntry
  intro i cnt s before after c hi hsel hicap hstrict hgrp hbefore hc
  obtain ⟨op, hop⟩ := groupOperation_of_decoder hi
  have hany : (before ++ c :: after).any isInvalid = true :=
    List.any_eq_true.mpr ⟨c, List.mem_append_right before List.mem_cons_self, hc⟩
  obtain ⟨d, hexec⟩ := exec_decoder_raises hop hsel hicap hgrp ⟨hstrict, hany⟩
  rw [findIdx_append_cons hbefore hc] at hexec
  exact ⟨_, d, hexec, cause_of_error rfl, rfl⟩

end Sys2Proof.Proofs
end

section
/-! Proof of the obligation about the reset event (70_reset_and_hazards.md R230, R231): the event is the
host's next move, so the step is `State.resetEvent`, and what it leaves is read off its field lemmas. -/

namespace Sys2Proof.Proofs

open Sys2Proof.Machine

/-- CAUSE is computed from STATUS, which is IDLE after the event (R28, R230). -/
@[simp] theorem cause_resetEvent (s : State) : s.resetEvent.cause = 0#2 := rfl

/-- With the reset event next, the step is the event, whatever the state (R230). -/
theorem step_reset {s : State} {l : List HostMove} (h : s.hostMoves = .reset :: l) :
    step s = .next (s.withMoves l).resetEvent := by
  simp only [step, State.turn, h]

/-- Settles O9: the step is the reset event, which sets each register to its reset value, keeps the straps
and leaves two empty buffers, where no cell has a value. -/
theorem resetEventResets : Obligations.ResetEventResets := by
  unfold Obligations.ResetEventResets
  intro s l hreset
  refine ⟨(s.withMoves l).resetEvent, step_reset hreset, ?registers⟩
  case registers => simp

end Sys2Proof.Proofs
end

section
/-! Proofs of the obligations about the codes (30_encoding.md R96, R98, R102): decoder and encoder undo each
other on descriptors and on records, and the sequencer's descriptor is the code of the operation that its
mode and count name. -/

namespace Sys2Proof.Proofs

open Sys2Proof.Machine

/-! ## Decoder and encoder -/

theorem decode_encode : ∀ i : Instr, decode (encode i) = .ok i
  | .ehalt => Laws.RoundTrip.ehalt
  | .enc1 => Laws.RoundTrip.enc1
  | .enc2 => Laws.RoundTrip.enc2
  | .enc3 => Laws.RoundTrip.enc3
  | .dhalt => Laws.RoundTrip.dhalt
  | .dec1 => Laws.RoundTrip.dec1
  | .dec2 => Laws.RoundTrip.dec2
  | .dec3 => Laws.RoundTrip.dec3
  | .dec4 => Laws.RoundTrip.dec4
  | .rreg n => Laws.RoundTrip.rreg n
  | .wreg n v => Laws.RoundTrip.wreg n v
  | .rbuf sel idx => Laws.RoundTrip.rbuf sel idx
  | .wbuf idx v => Laws.RoundTrip.wbuf idx v

theorem encode_of_decodeDescriptor {b : BitVec 4} {i : Instr} (h : decodeDescriptor b = .ok i) :
    encode i = .bd b := by
  unfold decodeDescriptor at h
  split at h <;> cases h <;> rfl

/-- A selector is the code of the buffer it names: one bit has two values. -/
theorem code_ofCode (b : BitVec 1) : (BufSel.ofCode b).code = b := by
  revert b; decide

theorem bitVec_two_cases (b : BitVec 2) : b = 0#2 ∨ b = 1#2 ∨ b = 2#2 ∨ b = 3#2 := by
  revert b; decide

/-- The row of WBUF in R102: `sel` is fixed to 0 and the value is 8 bits. -/
theorem decodeRecord_wbuf (sel : BitVec 1) (num val : Nat) :
    decodeRecord { op := 3#2, sel := sel, num := num, val := val } =
      if sel = 0#1 then
        if val < 256 then .ok (.wbuf num (BitVec.ofNat 8 val)) else .error (.cellValueTooWide val)
      else .error .writeToObuf := rfl

/-- By the command the record's `op` names; a WBUF record decodes only with `sel` 0 and a value of 8 bits. -/
theorem encode_of_decodeRecord {r : HostRecord} {i : Instr} (h : decodeRecord r = .ok i) :
    encode i = (Code.hc r).canonical := by
  obtain ⟨op, sel, num, val⟩ := r
  obtain rfl | rfl | rfl | rfl := bitVec_two_cases op
  · cases h; rfl
  · cases h; rfl
  · cases h
    simp [encode, Code.canonical, code_ofCode]
  · rw [decodeRecord_wbuf] at h
    split_ifs at h with hsel hval
    cases h
    simp [encode, Code.canonical, hsel, Nat.mod_eq_of_lt hval]

/-- Settles O3: `decode_encode`, and the converse for descriptors and for records. -/
theorem decodeEncodeAgree : Obligations.DecodeEncodeAgree := by
  unfold Obligations.DecodeEncodeAgree
  refine ⟨decode_encode, fun c i h => ?converse⟩
  case converse =>
    cases c with
    | bd b => exact encode_of_decodeDescriptor h
    | hc r => exact encode_of_decodeRecord h

/-- Settles O2: each record is the code of its command. -/
theorem hostRecordsDecode : Obligations.HostRecordsDecode :=
  ⟨decode_encode (.rreg 4), decode_encode (.wreg 0 1), decode_encode (.rbuf .ibuf 3),
    decode_encode (.rbuf .obuf 3), decode_encode (.wbuf 0 0x4D#8)⟩

/-- Settles O4, value by value of the two reserved ranges. -/
theorem reservedDescriptorsRefused : Obligations.ReservedDescriptorsRefused := by
  unfold Obligations.ReservedDescriptorsRefused
  decide

/-! ## The operation the sequencer selects -/

/-- The operation of the row `cat(m, cnt)` of R96. -/
def selectedOperation : Mode → Nat → Instr
  | .enc, 0 => .ehalt
  | .enc, 1 => .enc1
  | .enc, 2 => .enc2
  | .enc, _ => .enc3
  | .dec, 0 => .dhalt
  | .dec, 1 => .dec1
  | .dec, 2 => .dec2
  | .dec, 3 => .dec3
  | .dec, _ => .dec4

theorem groupCount_le_width (s : State) : s.groupCount ≤ groupWidth s.mode := Nat.min_le_left _ _

theorem decode_row {m : Mode} {cnt : Nat} (h : cnt ≤ groupWidth m) :
    decode (.bd (m.bit ++ BitVec.ofNat 3 cnt)) = .ok (selectedOperation m cnt) := by
  cases m <;> simp only [groupWidth] at h <;> interval_cases cnt <;> rfl

/-- The sequencer's descriptor decodes to the row of its mode and count (R96). -/
theorem decode_descriptor (s : State) :
    decode (.bd s.descriptor) = .ok (selectedOperation s.mode s.groupCount) :=
  decode_row (groupCount_le_width s)

theorem selectedOperation_mem (m : Mode) (cnt : Nat) : selectedOperation m cnt ∈ blockOperations := by
  unfold selectedOperation
  split <;> decide

/-- A block operation has no operand to be too wide. -/
theorem wf_of_mem_blockOperations (lenW : Nat) : ∀ i ∈ blockOperations, i.wf lenW = true := by
  simp [blockOperations, Instr.wf]

/-- Settles O5: the descriptor's row is `selectedOperation`, one of the nine. -/
theorem descriptorNeverReserved : Obligations.DescriptorNeverReserved := by
  intro s
  have hmem := selectedOperation_mem s.mode s.groupCount
  exact ⟨_, hmem, decode_descriptor s, wf_of_mem_blockOperations _ _ hmem⟩

end Sys2Proof.Proofs
end

section
/-! Proofs of the obligations about whose turn a step is (42_sequencer_and_host.md R170, R181, R216;
30_encoding.md R103). What the step is for each head of the host's list is said once; later proofs cite these
equations and do not unfold `step`. -/

namespace Sys2Proof.Proofs

open Sys2Proof.Machine

/-! ## One equation for each head of the host's list -/

section
variable {s : State} {l : List HostMove}

theorem step_idle (hm : s.hostMoves = []) (hb : s.status ≠ .busy) : step s = .next s := by
  simp [step, State.turn, hm, State.blockTurn, hb]

theorem step_wait_busy (hm : s.hostMoves = .wait :: l) (hb : s.status = .busy) :
    step s = runCode (.bd (s.withMoves l).descriptor) (s.withMoves l) := by
  simp [step, State.turn, hm, State.blockTurn, hb]

theorem step_wait_idle (hm : s.hostMoves = .wait :: l) (hb : s.status ≠ .busy) :
    step s = .next (s.withMoves l) := by
  simp [step, State.turn, hm, State.blockTurn, hb]

theorem step_issue {r : HostRecord} (hm : s.hostMoves = .issue r :: l) :
    step s = runCode (.hc r) (s.withMoves l) := by
  simp only [step, State.turn, hm]

/-- WAIT is `RREG STATUS` and the host's reaction to it (R103). -/
theorem step_pollStatus (hm : s.hostMoves = .pollStatus :: l) :
    step s = .next (((s.withMoves l).answer (some (.reg s.status.code.toNat))).react .repeatWhileOne) := by
  simp only [step, State.turn, hm]
  rfl

end

/-- The block's own step is the operation of the row of its mode and count (R181). -/
theorem runCode_descriptor (s : State) :
    runCode (.bd s.descriptor) s = exec (selectedOperation s.mode s.groupCount) s :=
  runCode_ok (decode_descriptor s) (wf_of_mem_blockOperations _ _ (selectedOperation_mem _ _))

/-- Settles O6: the four cases are the equations of the step, with `runCode` of the code. -/
theorem stepRunsDecoded : Obligations.StepRunsDecoded := by
  unfold Obligations.StepRunsDecoded
  have block {s : State} {i : Instr} (hd : decode (.bd s.descriptor) = .ok i) :
      runCode (.bd s.descriptor) s = exec i s := by
    obtain rfl : selectedOperation s.mode s.groupCount = i :=
      Except.ok.inj ((decode_descriptor s).symm.trans hd)
    exact runCode_descriptor s
  refine ⟨fun s i hm hb hd => ?block, fun s l i hm hb hd => ?wait, fun s l r i hm hd hw => ?command,
    fun s l r e hm hd => ?undecodable⟩
  case block => exact (step_block hm hb).trans (block hd)
  case wait => exact (step_wait_busy hm hb).trans (block (s := s.withMoves l) hd)
  case command => exact (step_issue hm).trans (runCode_ok hd hw)
  case undecodable => rw [step_issue hm, runCode, hd]

/-- Settles O7: with no step of the block enabled the state is kept. -/
theorem idleKeepsState : Obligations.IdleKeepsState := by
  intro s hb
  exact ⟨fun hm => step_idle hm hb, fun _ hm => step_wait_idle hm hb⟩

/-! ## What the host makes of a register read -/

/-- STATUS reads 1 exactly while a run is in progress (R23). -/
theorem toNat_statusCode_eq_one {st : Status} : st.code.toNat = 1 ↔ st = .busy := by
  cases st <;> decide

/-- While BUSY the host waits one step and polls again. -/
theorem step_pollStatus_busy {s : State} {l : List HostMove} (hm : s.hostMoves = .pollStatus :: l)
    (hb : s.status = .busy) :
    step s = .next ((s.withMoves (.wait :: .pollStatus :: l)).answer (some (.reg 1))) := by
  rw [step_pollStatus hm, toNat_statusCode_eq_one.mpr hb]
  rfl

/-- Once no run is in progress the WAIT is over. -/
theorem step_pollStatus_over {s : State} {l : List HostMove} (hm : s.hostMoves = .pollStatus :: l)
    (hb : s.status ≠ .busy) :
    step s = .next ((s.withMoves l).answer (some (.reg s.status.code.toNat))) := by
  rw [step_pollStatus hm]
  simp [State.react, mt toNat_statusCode_eq_one.mp hb]

/-- The reads of `n` cells from `a` on are the records of `RBUF OBUF, a` to `RBUF OBUF, a + n - 1`. -/
theorem readCells_eq_map (a n : Nat) : readCells a n = (List.range n).map
    (fun i => HostMove.issue { op := 0b10#2, sel := 1#1, num := a + i, val := 0 }) := by
  induction n generalizing a with
  | zero => rfl
  | succ n ih =>
    simp only [readCells, ih, issue, encode, BufSel.code, List.range_succ_eq_map]
    simp [Function.comp_def, Nat.add_assoc, Nat.add_comm 1]

/-- The end of a call reads OLEN, and then the cells of the output, as many as that read returned (R103). -/
theorem step_readOutput {s : State} {l : List HostMove} (hm : s.hostMoves = .readOutput :: l) :
    step s = .next ((s.withMoves (readCells 0 s.wp ++ l)).answer (some (.reg s.wp))) := by
  simp only [step, State.turn, hm]
  rfl

/-- Settles O58: the polls are `step_pollStatus_busy` and `step_pollStatus_over`, and the reads that end a
call are the records that `readCells_eq_map` lists. -/
theorem hostActsOnReplies : Obligations.HostActsOnReplies := by
  unfold Obligations.HostActsOnReplies
  intro s l
  refine ⟨fun hm => ⟨step_pollStatus_busy hm, fun hb => ?finished⟩, fun hm => ?output⟩
  case finished => exact ⟨_, mt toNat_statusCode_eq_one.mp hb, step_pollStatus_over hm hb⟩
  case output =>
    rw [step_readOutput hm, readCells_eq_map]
    simp only [Nat.zero_add]
    rfl

end Sys2Proof.Proofs
end

section
/-! Proofs of the obligations about the four host commands (42_sequencer_and_host.md R172 to R175, R178,
R186). Each register and each rule of a buffer access is one case; what any command can do to the block is
said once (`exec_hostCommand`). -/

namespace Sys2Proof.Proofs

open Sys2Proof.Machine

/-! ## RREG and WREG -/

theorem exec_rreg_of_some {s : State} {n v : Nat} (h : s.hreg n = some v) :
    exec (.rreg n) s = .next (s.answer (some (.reg v))) := by
  simp only [exec, execRreg, h]

theorem exec_rreg_of_none {s : State} {n : Nat} (h : s.hreg n = none) :
    exec (.rreg n) s = .next (s.refuse .reservedRegister) := by
  simp only [exec, execRreg, h]

/-- A register number above 7 is reserved (R172). -/
theorem hreg_of_seven_lt {n : Nat} (h : 7 < n) (s : State) : s.hreg n = none := by
  obtain ⟨k, rfl⟩ : ∃ k, n = k + 8 := ⟨n - 8, by omega⟩
  rfl

/-- CONFIG as a number: PAD_MODE at bit 0, INVALID_POLICY at bit 1, REV_DEFAULT from bit 2 on (R26). -/
theorem toNat_configBits (p : Params) : (configBits p).toNat =
    (if p.padMode = .truncate then 1 else 0) + 2 * (if p.invalidPolicy = .strict then 1 else 0) +
      4 * p.revDefault.toNat := by
  have hcat (d : Sextet) (i b : BitVec 1) :
      BitVec.toNat (w := 6 + 1 + 1) (d ++ i ++ b) = b.toNat + 2 * i.toNat + 4 * d.toNat := by
    have hi : i.toNat < 2 ^ 1 := i.isLt
    have hb : b.toNat < 2 ^ 1 := b.isLt
    rw [BitVec.toNat_append, BitVec.toNat_append, ← Nat.shiftLeft_add_eq_or_of_lt hi,
      ← Nat.shiftLeft_add_eq_or_of_lt hb, Nat.shiftLeft_eq, Nat.shiftLeft_eq]
    omega
  refine (hcat _ _ _).trans ?_
  cases p.padMode <;> cases p.invalidPolicy <;> rfl

theorem toNat_statusCode (st : Status) :
    st.code.toNat = match st with | .idle => 0 | .busy => 1 | .done => 2 | .error => 3 := by
  cases st <;> rfl

theorem toNat_modeBit_match (m : Mode) : m.bit.toNat = match m with | .enc => 0 | .dec => 1 := by
  cases m <;> rfl

theorem toNat_cause (s : State) : s.cause.toNat = if s.status = .error then 1 else 0 := by
  rw [State.cause]
  cases s.status <;> rfl

/-- Settles O29, register by register. -/
theorem rregReturns : Obligations.RregReturns := by
  intro s
  refine ⟨exec_rreg_of_some rfl, exec_rreg_of_some ?status, exec_rreg_of_some ?mode, exec_rreg_of_some rfl,
    exec_rreg_of_some rfl, exec_rreg_of_some rfl, exec_rreg_of_some ?config, exec_rreg_of_some ?cause,
    fun n hn => exec_rreg_of_none (hreg_of_seven_lt hn s)⟩
  case status => exact congrArg some (toNat_statusCode s.status)
  case mode => exact congrArg some (toNat_modeBit_match s.mode)
  case config => rw [State.hreg, toNat_configBits]
  case cause => rw [State.hreg, toNat_cause]

theorem unlessBusy_of_busy {s : State} (h : s.status = .busy) (t : State) :
    s.unlessBusy t = s.answer none := if_pos h

theorem unlessBusy_of_not_busy {s : State} (h : s.status ≠ .busy) (t : State) :
    s.unlessBusy t = t.answer none := if_neg h

/-- A write of CTRL with bit 0 clear does nothing (R173). -/
theorem writeRegister_ctrl_of_even {v : Nat} (hv : v % 2 = 0) (s : State) :
    s.writeRegister 0 v = s.answer none := if_neg (by omega)

theorem writeRegister_readOnly {n : Nat} (hn : n ∈ [1, 4, 5, 6, 7]) (s : State) (v : Nat) :
    s.writeRegister n v = s.answer none := by
  fin_cases hn <;> rfl

theorem writeRegister_reserved {n : Nat} (hn : 7 < n) (s : State) (v : Nat) :
    s.writeRegister n v = s.refuse .reservedRegister := by
  obtain ⟨k, rfl⟩ : ∃ k, n = k + 8 := ⟨n - 8, by omega⟩
  rfl

/-- Settles O30, register by register. -/
theorem wregEffects : Obligations.WregEffects := by
  intro s v
  refine ⟨fun hv => congrArg _ (writeRegister_ctrl_of_even hv s),
    fun hb => congrArg _ (unlessBusy_of_not_busy hb _), fun hb => congrArg _ (unlessBusy_of_not_busy hb _),
    fun hb n hn => ?busy, fun n hn => congrArg _ (writeRegister_readOnly hn s v),
    fun n hn => congrArg _ (writeRegister_reserved hn s v)⟩
  case busy => fin_cases hn <;> exact congrArg _ (unlessBusy_of_busy hb _)

theorem start_of_beyond_capacity {s : State} (hb : s.status ≠ .busy) (hp : ¬ s.LaunchPremise) :
    s.start = s.refuse .launchExceedsCapacity :=
  (if_neg hb).trans (if_neg hp)

/-- DecLenMax as a number: the remainder of 4 is below 4, where `Tail` is 0, 0, 1, 2 (R17). -/
theorem decLenMax_eq (n : Nat) : decLenMax n =
    3 * (n / 4) + (if n % 4 = 3 then 2 else if n % 4 = 2 then 1 else 0) := by
  rw [decLenMax, tail_eq]
  split_ifs <;> omega

/-- Settles O32: a START beyond a capacity is `State.refuse`. -/
theorem startBeyondCapacityRefused : Obligations.StartBeyondCapacityRefused := by
  refine ⟨fun _ => rfl, decLenMax_eq, fun s v hv hb hbeyond => ⟨none, ?refused⟩⟩
  case refused =>
    have hp : ¬ s.LaunchPremise := fun ⟨hicap, hocap⟩ => by omega
    exact (exec_wreg_ctrl_of_odd hv s).trans (congrArg _ (start_of_beyond_capacity hb hp))

/-! ## RBUF and WBUF -/

theorem readBuffer_specified {s : State} {sel : BufSel} {idx : Nat} {v : Byte}
    (hcap : idx < s.capacity sel) (h : s.specifiedCell sel idx = some v) :
    s.readBuffer sel idx = s.answer (some (.cell v)) := by
  simp only [State.readBuffer, if_pos hcap, h]

theorem readBuffer_unspecified {s : State} {sel : BufSel} {idx : Nat}
    (hcap : idx < s.capacity sel) (h : s.specifiedCell sel idx = none) :
    s.readBuffer sel idx =
      (s.withDraws (s.draws + 1)).answer (some (.cell (Config.freeByte s.draws))) := by
  simp only [State.readBuffer, if_pos hcap, h]

theorem readBuffer_out_of_range {s : State} {sel : BufSel} {idx : Nat} (h : s.capacity sel ≤ idx) :
    s.readBuffer sel idx = s.refuse .indexOutOfRange := if_neg (by omega)

/-- Outside a run a cell of IBUF is specified exactly where it has been written (R174). -/
theorem specifiedCell_ibuf {s : State} (hb : s.status ≠ .busy) (idx : Nat) :
    s.specifiedCell .ibuf idx = s.ibuf.read idx := if_neg hb

/-- Outside a run a cell of OBUF is specified where it is valid output that has been written (R174). -/
theorem specifiedCell_obuf {s : State} (hb : s.status ≠ .busy) (idx : Nat) :
    s.specifiedCell .obuf idx = if idx < s.wp then s.obuf.read idx else none := if_neg hb

theorem specifiedCell_of_busy {s : State} (hb : s.status = .busy) (sel : BufSel) (idx : Nat) :
    s.specifiedCell sel idx = none := if_pos hb

theorem specifiedCell_ibuf_none {s : State} {idx : Nat}
    (h : s.status = .busy ∨ s.ibuf.read idx = none) : s.specifiedCell .ibuf idx = none := by
  by_cases hb : s.status = .busy
  · exact specifiedCell_of_busy hb _ _
  · rw [specifiedCell_ibuf hb]
    exact h.resolve_left hb

theorem specifiedCell_obuf_none {s : State} {idx : Nat}
    (h : s.status = .busy ∨ s.wp ≤ idx ∨ s.obuf.read idx = none) : s.specifiedCell .obuf idx = none := by
  by_cases hb : s.status = .busy
  · exact specifiedCell_of_busy hb _ _
  · rw [specifiedCell_obuf hb]
    split_ifs with hlt
    · exact (h.resolve_left hb).resolve_left (by omega)
    · rfl

theorem capacity_eq (s : State) (sel : BufSel) :
    s.capacity sel = if sel = .ibuf then s.params.icap else s.params.ocap := by
  cases sel <;> rfl

/-- Settles O33: the cell where one is specified, the next free value where none is, and the mark beyond the
capacity. -/
theorem rbufReturns : Obligations.RbufReturns := by
  intro s idx
  refine ⟨fun v hb hcap hv => congrArg _ (readBuffer_specified hcap ?ibuf),
    fun v hb hcap hwp hv => congrArg _ (readBuffer_specified hcap ?obuf),
    fun hcap h => congrArg _ (readBuffer_unspecified hcap (specifiedCell_ibuf_none h)),
    fun hcap h => congrArg _ (readBuffer_unspecified hcap (specifiedCell_obuf_none h)),
    fun sel h => congrArg _ (readBuffer_out_of_range ((capacity_eq s sel).trans_le h))⟩
  case ibuf => exact (specifiedCell_ibuf hb idx).trans hv
  case obuf => rw [specifiedCell_obuf hb, if_pos hwp, hv]

theorem writeBuffer_in_range {s : State} {idx : Nat} (h : idx < s.params.icap) (v : Byte) :
    s.writeBuffer idx v = s.unlessBusy (s.storeInput idx v) := if_pos h

theorem writeBuffer_out_of_range {s : State} {idx : Nat} (h : s.params.icap ≤ idx) (v : Byte) :
    s.writeBuffer idx v = s.refuse .indexOutOfRange := if_neg (by omega)

/-- Settles O34: in range the write is `State.storeInput`, whose buffer is `Memory.write`. -/
theorem wbufEffects : Obligations.WbufEffects := by
  intro s idx v
  refine ⟨fun hb hcap => ⟨s.ibuf.write idx v, ?stored, Memory.read_write_same _ _ _,
      fun a ha => Memory.read_write_other _ _ ha⟩,
    fun hb hcap => ?ignored, fun hcap => congrArg _ (writeBuffer_out_of_range hcap v)⟩
  case stored => exact congrArg _ ((writeBuffer_in_range hcap v).trans (unlessBusy_of_not_busy hb _))
  case ignored => exact congrArg _ ((writeBuffer_in_range hcap v).trans (unlessBusy_of_busy hb _))

/-! ## What a host command can do to the block -/

/-- `HostEffect s i x`: the command `i` may leave the block of `s` as that of `x` (R173, R175, R177, R186). -/
inductive HostEffect (s : State) : Instr → State → Prop
  | keep (i : Instr) : HostEffect s i s
  | launch (v : Nat) : v % 2 = 1 → s.status ≠ .busy → s.LaunchPremise → HostEffect s (.wreg 0 v) s.launch
  | setMode (v : Nat) : s.status ≠ .busy → HostEffect s (.wreg 2 v) (s.setMode (Mode.ofValue v))
  | setIlen (v : Nat) : s.status ≠ .busy → HostEffect s (.wreg 3 v) (s.setIlen v)
  | store (idx : Nat) (v : Byte) : s.status ≠ .busy → idx < s.params.icap →
      HostEffect s (.wbuf idx v) (s.storeInput idx v)

/-- `t` is what the command `i` makes of `x`, whose block it leaves: the host has the same moves left, no
mark is cleared, and only RBUF draws a free value. -/
structure Answers (i : Instr) (x t : State) : Prop where
  block : x.SameBlock t
  moves : t.hostMoves = x.hostMoves
  mark : t.Unmarked → x.Unmarked
  draws : (∀ sel idx, i ≠ .rbuf sel idx) → t.draws = x.draws

theorem answers_answer (i : Instr) (x : State) (r : Option Reply) : Answers i x (x.answer r) :=
  ⟨⟨rfl, rfl, rfl, rfl, rfl, rfl, rfl, rfl, rfl⟩, rfl, id, fun _ => rfl⟩

theorem answers_rbuf (sel : BufSel) (idx : Nat) (x : State) (d : Nat) (r : Option Reply) :
    Answers (.rbuf sel idx) x ((x.withDraws d).answer r) :=
  ⟨⟨rfl, rfl, rfl, rfl, rfl, rfl, rfl, rfl, rfl⟩, rfl, id, fun h => absurd rfl (h sel idx)⟩

theorem answers_refuse (i : Instr) (x : State) (r : CommandRefusal) : Answers i x (x.refuse r) :=
  ⟨⟨rfl, rfl, rfl, rfl, rfl, rfl, rfl, rfl, rfl⟩, rfl, fun h => absurd h (Option.some_ne_none r),
    fun _ => rfl⟩

theorem writeRegister_effect (s : State) (n v : Nat) :
    ∃ x, HostEffect s (.wreg n v) x ∧ Answers (.wreg n v) x (s.writeRegister n v) := by
  rcases s.writeRegister_cases n v with h | ⟨hb, hp, rfl, h⟩ | ⟨hb, rfl, h⟩ | ⟨hb, rfl, h⟩ | ⟨r, h⟩
  · exact ⟨s, .keep _, h ▸ answers_answer _ _ _⟩
  · rcases Nat.mod_two_eq_zero_or_one v with hv | hv
    · exact ⟨s, .keep _, writeRegister_ctrl_of_even hv s ▸ answers_answer _ _ _⟩
    · exact ⟨_, .launch v hv hb hp, h ▸ answers_answer _ _ _⟩
  · exact ⟨_, .setMode v hb, h ▸ answers_answer _ _ _⟩
  · exact ⟨_, .setIlen v hb, h ▸ answers_answer _ _ _⟩
  · exact ⟨s, .keep _, h ▸ answers_refuse _ _ _⟩

/-- Every host command completes, with one of the effects, and leaves the host's moves. -/
theorem exec_hostCommand {i : Instr} (hi : isHostCommand i = true) (s : State) :
    ∃ x t, exec i s = .next t ∧ HostEffect s i x ∧ Answers i x t := by
  cases i with
  | rreg n =>
    cases hv : s.hreg n with
    | some v => exact ⟨s, _, exec_rreg_of_some hv, .keep _, answers_answer _ _ _⟩
    | none => exact ⟨s, _, exec_rreg_of_none hv, .keep _, answers_refuse _ _ _⟩
  | wreg n v =>
    obtain ⟨x, hx, ht⟩ := writeRegister_effect s n v
    exact ⟨x, _, rfl, hx, ht⟩
  | rbuf sel idx =>
    refine ⟨s, s.readBuffer sel idx, rfl, .keep _, ?_⟩
    rcases s.readBuffer_cases sel idx with ⟨d, v, h⟩ | ⟨r, h⟩
    · exact h ▸ answers_rbuf _ _ _ _ _
    · exact h ▸ answers_refuse _ _ _
  | wbuf idx v =>
    rcases s.writeBuffer_cases idx v with h | ⟨hb, hcap, h⟩ | ⟨r, h⟩
    · exact ⟨s, s.writeBuffer idx v, rfl, .keep _, h ▸ answers_answer _ _ _⟩
    · exact ⟨_, s.writeBuffer idx v, rfl, .store idx v hb hcap, h ▸ answers_answer _ _ _⟩
    · exact ⟨s, s.writeBuffer idx v, rfl, .keep _, h ▸ answers_refuse _ _ _⟩
  | _ => cases hi

/-- While BUSY every effect but `keep` is ruled out (R186). -/
theorem HostEffect.of_busy {s x : State} {i : Instr} (h : HostEffect s i x) (hb : s.status = .busy) :
    x = s := by
  cases h with
  | keep => rfl
  | launch _ _ hnb => exact absurd hb hnb
  | setMode _ hnb => exact absurd hb hnb
  | setIlen _ hnb => exact absurd hb hnb
  | store _ _ hnb => exact absurd hb hnb

/-- Settles O35: while BUSY the only effect is `keep`. -/
theorem busyIgnoresHost : Obligations.BusyIgnoresHost := by
  intro s i hb hi
  obtain ⟨x, t, hexec, heffect, hanswers⟩ := exec_hostCommand hi s
  obtain rfl := heffect.of_busy hb
  exact ⟨t, hexec, hanswers.block, hanswers.moves⟩

/-- What each effect leaves of the block's registers and buffers, and of the host's record. -/
theorem HostEffect.frame {s x : State} {i : Instr} (h : HostEffect s i x) :
    x.params = s.params ∧ x.obuf = s.obuf ∧ x.hostMoves = s.hostMoves ∧ x.refused = s.refused ∧
    x.draws = s.draws ∧
    (∀ a, (∀ v, i ≠ .wbuf a v) → x.ibuf.read a = s.ibuf.read a) ∧
    ((∀ v, i ≠ .wreg 2 v) → x.mode = s.mode) ∧
    ((∀ v, i ≠ .wreg 3 v) → x.ilen = s.ilen) ∧
    ((∀ v, i ≠ .wreg 0 v) → x.status = s.status ∧ x.rp = s.rp ∧ x.wp = s.wp ∧ x.errIdx = s.errIdx) := by
  cases h with
  | keep => simp
  | launch v => simp
  | setMode v => simp
  | setIlen v => simp
  | store idx v =>
    have hread (a : Nat) (ha : ∀ w, Instr.wbuf idx v ≠ .wbuf a w) :
        (s.storeInput idx v).ibuf.read a = s.ibuf.read a :=
      Memory.read_write_other _ _ fun hidx => ha v (by rw [hidx])
    simp_all

/-- Settles O36: the frame of the effect, and of the answer that follows it. -/
theorem hostFrame : Obligations.HostFrame := by
  intro s t i hi hexec
  obtain ⟨x, t', hexec', heffect, hanswers⟩ := exec_hostCommand hi s
  obtain rfl : t' = t := Host.Outcome.next.inj (hexec'.symm.trans hexec)
  obtain ⟨hparams, hobuf, hmoves, -, hdraws, hibuf, hmode, hilen, hrun⟩ := heffect.frame
  obtain ⟨⟨tparams, tmode, tilen, tstatus, trp, twp, terrIdx, tibuf, tobuf⟩, tmoves, -, tdraws⟩ :=
    hanswers
  rw [tparams, tmode, tilen, tstatus, trp, twp, terrIdx, tibuf, tobuf, tmoves]
  exact ⟨hparams, hobuf, hmoves, hibuf, hmode, hilen, hrun, fun h => (tdraws h).trans hdraws⟩

end Sys2Proof.Proofs
end

section
/-! Everything one step can do to the block (42_sequencer_and_host.md R170, R180, R181): the block's own step
as one equation for both modes and every count, and an inversion of the step. The proofs of the obligations
about every step, and the frames of the block operations, are case splits on it. -/

namespace Sys2Proof.Proofs

open Sys2Proof.Machine

/-! ## What a group yields, in either mode -/

/-- What the block processor yields for a group of mode `m`: in ENC mode its encoding, in DEC mode the first
of the reconstructed bytes, checked (R121 to R123, R141 to R144). -/
def groupResult (m : Mode) (p : Params) (grp : List Byte) : GroupResult :=
  match m with
  | .enc => .emit (encodeBytes grp)
  | .dec => checkedEmit p grp (reconstruct p.revDefault grp)

theorem encoderGroup_eq {i : Instr} {cnt : Nat} {op : Params → List Byte → GroupResult}
    (h : groupOperation i = some (.enc, cnt, op)) (p : Params) {grp : List Byte}
    (hl : grp.length = cnt) : op p grp = .emit (encodeBytes grp) := by
  cases i <;> simp only [groupOperation, Option.some.injEq, Prod.mk.injEq, reduceCtorEq, false_and] at h <;>
    obtain ⟨-, rfl, rfl⟩ := h
  · match grp, hl with
    | [_], _ => rfl
  · match grp, hl with
    | [_, _], _ => rfl
  · match grp, hl with
    | [_, _, _], _ => rfl

/-- Each of the seven group operations yields `groupResult`. -/
theorem groupOperation_eq_groupResult {i : Instr} {m : Mode} {cnt : Nat}
    {op : Params → List Byte → GroupResult} (h : groupOperation i = some (m, cnt, op)) (p : Params)
    {grp : List Byte} (hl : grp.length = cnt) : op p grp = groupResult m p grp := by
  cases m with
  | enc => exact encoderGroup_eq h p hl
  | dec => exact decoderGroup_eq h p hl

theorem encodeBytes_length_of_group {grp : List Byte} (hpos : 0 < grp.length) (hle : grp.length ≤ 3) :
    (encodeBytes grp).length = 4 := by
  match grp, hpos, hle with
  | [_], _, _ => rfl
  | [_, _], _, _ => rfl
  | [_, _, _], _, _ => rfl

/-- The STRICT check of a group, whatever its mode: an invalid character is at an index of the group, and
only DEC mode under STRICT looks for one (R148). -/
theorem groupResult_invalid {m : Mode} {p : Params} {grp : List Byte} {pos : Nat}
    (h : groupResult m p grp = .invalid pos) :
    m = .dec ∧ p.invalidPolicy = .strict ∧ pos < grp.length := by
  cases m with
  | enc => cases h
  | dec =>
    by_cases hbad : p.invalidPolicy = .strict ∧ grp.any isInvalid = true
    · rw [groupResult, checkedEmit_invalid hbad] at h
      cases h
      have hex : ∃ c ∈ grp, isInvalid c = true := List.any_eq_true.mp hbad.2
      exact ⟨rfl, hbad.1, List.findIdx_lt_length.mpr hex⟩
    · rw [groupResult, checkedEmit_emit hbad] at h
      cases h

/-- A group emits at most OutMax of its length, and in ENC mode exactly that (R17, R121 to R123, R145). -/
theorem groupResult_emit_length {m : Mode} {p : Params} {grp out : List Byte}
    (h : groupResult m p grp = .emit out) (hpos : 0 < grp.length) (hle : grp.length ≤ groupWidth m) :
    out.length ≤ outMax m grp.length ∧ (m = .enc → out.length = encLen grp.length) := by
  cases m with
  | enc =>
    have hle3 : grp.length ≤ 3 := hle
    cases h
    have hlen : (encodeBytes grp).length = encLen grp.length := by
      rw [encodeBytes_length_of_group hpos hle3, encLen]
      omega
    exact ⟨hlen.le, fun _ => hlen⟩
  | dec =>
    have hle4 : grp.length ≤ 4 := hle
    by_cases hbad : p.invalidPolicy = .strict ∧ grp.any isInvalid = true
    · rw [groupResult, checkedEmit_invalid hbad] at h
      cases h
    · rw [groupResult, checkedEmit_emit hbad] at h
      cases h
      refine ⟨?_, fun hm => by cases hm⟩
      have htail : tail grp.length = decLenMax grp.length := by
        interval_cases grp.length <;> rfl
      rw [length_take_reconstruct p hle4, outMax, ← htail]
      exact tail_mono (effLen_le p grp)

/-- OutMax adds up at a group boundary (R17). -/
theorem outMax_add {m : Mode} {r : Nat} (h : r % groupWidth m = 0) (c : Nat) :
    outMax m (r + c) = outMax m r + outMax m c := by
  cases m with
  | enc =>
    simp only [groupWidth] at h
    simp only [outMax, encLen]
    omega
  | dec =>
    simp only [groupWidth] at h
    have hdiv : (r + c) / 4 = r / 4 + c / 4 := by omega
    have hmod : (r + c) % 4 = c % 4 := by omega
    simp only [outMax, decLenMax, hdiv, hmod, h]
    simp only [tail]
    omega

theorem outMax_mono (m : Mode) {a b : Nat} (h : a ≤ b) : outMax m a ≤ outMax m b := by
  cases m with
  | enc => exact encLen_mono h
  | dec => exact decLenMax_mono h

/-! ## The block's own step -/

/-- The operation of a row on no cell halts, every other is the group operation of its mode and count. -/
theorem exec_selectedOperation_zero (m : Mode) (s : State) :
    exec (selectedOperation m 0) s = haltOperation m s := by
  cases m <;> rfl

theorem groupOperation_selectedOperation {m : Mode} {cnt : Nat} (hpos : 0 < cnt)
    (hle : cnt ≤ groupWidth m) : ∃ op, groupOperation (selectedOperation m cnt) = some (m, cnt, op) := by
  cases m <;> simp only [groupWidth] at hle <;> interval_cases cnt <;> exact ⟨_, rfl⟩

/-- `BlockEffect s x`: the block's step may lead from `s` to `x` (R180, R182, R204), free values apart. -/
inductive BlockEffect (s : State) : State → Prop
  | halt : s.status = .busy → s.rp = s.ilen → BlockEffect s s.halt
  | emit (out : List Byte) : s.status = .busy → s.rp < s.ilen → s.rp + s.groupCount ≤ s.params.icap →
      groupResult s.mode s.params (s.groupAt s.groupCount) = .emit out →
      s.wp + out.length ≤ s.params.ocap → BlockEffect s (s.advance s.groupCount out)
  | raise (pos : Nat) : s.status = .busy → s.rp < s.ilen → s.rp + s.groupCount ≤ s.params.icap →
      groupResult s.mode s.params (s.groupAt s.groupCount) = .invalid pos →
      BlockEffect s (s.raiseInvalidCharacter (s.rp + pos))

section
variable {s t : State}

/-- An operation that consumes a group emits or raises when it answers a next state. -/
theorem exec_group_effect {i : Instr} {m : Mode} {cnt : Nat} {op : Params → List Byte → GroupResult}
    (hi : groupOperation i = some (m, cnt, op)) (h : exec i s = .next t) :
    ∃ x d, BlockEffect s x ∧ t = x.withDraws d := by
  rw [exec_groupOperation hi] at h
  obtain ⟨⟨hb, rfl, hle, rfl⟩, hcap, d, hcase⟩ := blockOperation_next h
  have hpos := (groupOperation_count hi).1
  have hlt : s.rp < s.ilen := by
    simp only [State.groupCount] at hpos
    omega
  have hop := groupOperation_eq_groupResult hi s.params (groupAt_length s s.groupCount)
  rcases hcase with ⟨out, hout, hroom, rfl⟩ | ⟨pos, hraise, rfl⟩
  · exact ⟨_, d, .emit out hb hlt hcap (hop.symm.trans hout) hroom, rfl⟩
  · exact ⟨_, d, .raise pos hb hlt hcap (hop.symm.trans hraise), rfl⟩

theorem runCode_descriptor_effect (h : runCode (.bd s.descriptor) s = .next t) :
    ∃ x d, BlockEffect s x ∧ t = x.withDraws d := by
  rw [runCode_descriptor] at h
  rcases Nat.eq_zero_or_pos s.groupCount with hzero | hpos
  · rw [hzero, exec_selectedOperation_zero] at h
    obtain ⟨hsel, rfl⟩ := haltOperation_next h
    exact ⟨_, s.draws, .halt hsel.1 hsel.rp_eq, rfl⟩
  · obtain ⟨op, hop⟩ := groupOperation_selectedOperation hpos (groupCount_le_width s)
    exact exec_group_effect hop h

end

/-- A run in progress, as far as its steps need it: the launch premise, RP at a group boundary or at the end
of the input, and no more output than OutMax of the input read (R24, R25, R178). -/
structure InProgress (s : State) : Prop where
  busy : s.status = .busy
  premise : s.LaunchPremise
  rp_le : s.rp ≤ s.ilen
  aligned : s.rp % groupWidth s.mode = 0 ∨ s.rp = s.ilen
  wp_le : s.wp ≤ outMax s.mode s.rp

section
variable {s : State}

theorem groupCount_pos (h : s.rp < s.ilen) : 0 < s.groupCount := by
  have : 0 < groupWidth s.mode := by cases s.mode <;> decide
  simp only [State.groupCount]
  omega

theorem rp_add_groupCount_le (h : s.rp ≤ s.ilen) : s.rp + s.groupCount ≤ s.ilen := by
  simp only [State.groupCount]
  omega

/-- The cells a group emits keep the output within OutMax of the input read (R63). -/
theorem InProgress.wp_add_le (h : InProgress s) (hlt : s.rp < s.ilen) {out : List Byte}
    (hout : groupResult s.mode s.params (s.groupAt s.groupCount) = .emit out) :
    s.wp + out.length ≤ outMax s.mode (s.rp + s.groupCount) := by
  have hlen := groupAt_length s s.groupCount
  have hemit := (groupResult_emit_length hout (by rw [hlen]; exact groupCount_pos hlt)
    (by rw [hlen]; exact groupCount_le_width s)).1
  rw [hlen] at hemit
  rw [outMax_add (h.aligned.resolve_right hlt.ne)]
  exact Nat.add_le_add h.wp_le hemit

/-- Neither access of a block step leaves its buffer, so the step completes (R178, R180). -/
theorem InProgress.completes (h : InProgress s) :
    ∃ x d, BlockEffect s x ∧ runCode (.bd s.descriptor) s = .next (x.withDraws d) := by
  obtain ⟨hicap, hocap⟩ := h.premise
  rw [runCode_descriptor]
  rcases h.rp_le.eq_or_lt with hend | hlt
  · have hsel := selects_halt h.busy rfl hend
    rw [hsel.2.2.2, exec_selectedOperation_zero, haltOperation_selected hsel]
    exact ⟨_, s.draws, .halt h.busy hend, rfl⟩
  · have hsel : s.Selects s.mode s.groupCount := ⟨h.busy, rfl, h.rp_le, rfl⟩
    have hin := rp_add_groupCount_le h.rp_le
    have hcap := hin.trans hicap
    obtain ⟨op, hop⟩ := groupOperation_selectedOperation (groupCount_pos hlt) (groupCount_le_width s)
    have heq := groupOperation_eq_groupResult hop s.params (groupAt_length s s.groupCount)
    rw [exec_groupOperation hop]
    cases hres : groupResult s.mode s.params (s.groupAt s.groupCount) with
    | emit out =>
      have hroom := (h.wp_add_le hlt hres).trans ((outMax_mono _ hin).trans hocap)
      exact ⟨_, _, .emit out h.busy hlt hcap hres hroom,
        blockOperation_emit hsel hcap (heq.trans hres) hroom⟩
    | invalid pos =>
      exact ⟨_, _, .raise pos h.busy hlt hcap hres, blockOperation_invalid hsel hcap (heq.trans hres)⟩

/-- A completed group leaves a run in progress, RP moved past the group (R180). -/
theorem InProgress.advance (h : InProgress s) (hlt : s.rp < s.ilen) {out : List Byte}
    (hout : groupResult s.mode s.params (s.groupAt s.groupCount) = .emit out) :
    InProgress (s.advance s.groupCount out) where
  busy := h.busy
  premise := h.premise
  rp_le := rp_add_groupCount_le h.rp_le
  aligned := by
    have haligned := h.aligned.resolve_right hlt.ne
    simp only [State.advance_rp, State.advance_mode, State.advance_ilen]
    simp only [State.groupCount]
    rcases Nat.le_total (groupWidth s.mode) (s.ilen - s.rp) with hfull | hlast
    · left; rw [Nat.min_eq_left hfull, Nat.add_mod_right, haligned]
    · right; rw [Nat.min_eq_right hlast]; omega
  wp_le := h.wp_add_le hlt hout

end

theorem inProgress_of_inv {s : State} (h : s.Inv) (hb : s.status = .busy) : InProgress s := by
  obtain ⟨hpremise, hle, haligned, hwp, -⟩ := h.busy hb
  exact ⟨hb, hpremise, hle, haligned, hwp⟩

/-- Settles O43: the step is the block's, it completes, and each effect but `emit` ends the run. -/
theorem blockStepProgress : Obligations.BlockStepProgress := by
  intro s hinv hb hm
  have hrun := inProgress_of_inv hinv hb
  obtain ⟨x, d, heffect, hstep⟩ := hrun.completes
  refine ⟨x.withDraws d, (step_block hm hb).trans hstep, ?_⟩
  cases heffect with
  | halt => exact .inl (by simp)
  | raise pos => exact .inl (by simp)
  | emit out _ hlt =>
    refine .inr ⟨hb, ?_, rp_add_groupCount_le hrun.rp_le, ?_⟩
    · show s.rp < s.rp + s.groupCount
      have := groupCount_pos hlt
      omega
    · exact Nat.le_add_right s.wp out.length

/-! ## Everything one step can do -/

/-- `StepEffect s x`: a step from `s` may lead to a state with the block of `x`: the host's command, the
block's own step, the reset event, or nothing (R170, R181, R216, R230). -/
inductive StepEffect (s : State) : State → Prop
  | keep : StepEffect s s
  | command {l : List HostMove} {r : HostRecord} {i : Instr} {x : State} : s.hostMoves = .issue r :: l →
      decode (.hc r) = .ok i → i.wf s.params.lenW = true → HostEffect (s.withMoves l) i x → StepEffect s x
  | block {l : List HostMove} {x : State} : BlockEffect (s.withMoves l) x → StepEffect s x
  | reset {l : List HostMove} : s.hostMoves = .reset :: l → StepEffect s (s.withMoves l).resetEvent

theorem sameBlock_refl (s : State) : s.SameBlock s := ⟨rfl, rfl, rfl, rfl, rfl, rfl, rfl, rfl, rfl⟩

theorem withMoves_self {s : State} {l : List HostMove} (h : s.hostMoves = l) : s.withMoves l = s := by
  subst h; rfl

theorem BlockEffect.refused {s x : State} (h : BlockEffect s x) : x.refused = s.refused := by
  cases h <;> rfl

theorem BlockEffect.hostMoves {s x : State} (h : BlockEffect s x) : x.hostMoves = s.hostMoves := by
  cases h <;> rfl

/-- What is left of the host's list after a step (R103, entry 3): a poll repeats while BUSY, and the end of a
call goes on with its reads. -/
def movesAfter (s : State) : List HostMove :=
  match s.hostMoves with
  | [] => []
  | .issue _ :: l => l
  | .reset :: l => l
  | .wait :: l => l
  | .pollStatus :: l => if s.status = .busy then .wait :: .pollStatus :: l else l
  | .readOutput :: l => readCells 0 s.wp ++ l

/-- The step on the block's turn: its own step while BUSY. -/
theorem stepEffect_of_block {s t : State} {l : List HostMove}
    (h : runCode (.bd (s.withMoves l).descriptor) (s.withMoves l) = .next t) :
    ∃ x, StepEffect s x ∧ x.SameBlock t ∧ (t.Unmarked → s.Unmarked) ∧ t.hostMoves = l := by
  obtain ⟨x, d, heffect, rfl⟩ := runCode_descriptor_effect h
  exact ⟨x, .block heffect, sameBlock_refl x, fun hmark => heffect.refused.symm.trans hmark,
    heffect.hostMoves⟩

/-- Everything one step can do: to the block, to the mark, and to the host's list. -/
theorem step_effect {s t : State} (h : step s = .next t) : ∃ x, StepEffect s x ∧ x.SameBlock t ∧
    (t.Unmarked → s.Unmarked) ∧ t.hostMoves = movesAfter s := by
  cases hm : s.hostMoves with
  | nil =>
    simp only [movesAfter, hm]
    by_cases hb : s.status = .busy
    · rw [step_block hm hb, ← withMoves_self hm] at h
      exact stepEffect_of_block h
    · obtain rfl := Host.Outcome.next.inj ((step_idle hm hb).symm.trans h)
      exact ⟨s, .keep, sameBlock_refl s, id, hm⟩
  | cons move l =>
    cases move with
    | issue r =>
      simp only [movesAfter, hm]
      rw [step_issue hm] at h
      obtain ⟨i, hd, hw, hexec⟩ := runCode_next h
      obtain ⟨x, t', hexec', heffect, hanswers⟩ :=
        exec_hostCommand (decodeRecord_isHostCommand hd) (s.withMoves l)
      obtain rfl : t' = t := Host.Outcome.next.inj (hexec'.symm.trans hexec)
      obtain ⟨-, -, hmoves, hrefused, -⟩ := heffect.frame
      exact ⟨x, .command hm hd hw heffect, hanswers.block,
        fun hmark => hrefused.symm.trans (hanswers.mark hmark), hanswers.moves.trans hmoves⟩
    | reset =>
      simp only [movesAfter, hm]
      obtain rfl := Host.Outcome.next.inj ((step_reset hm).symm.trans h)
      exact ⟨_, .reset hm, sameBlock_refl _, id, rfl⟩
    | wait =>
      simp only [movesAfter, hm]
      by_cases hb : s.status = .busy
      · rw [step_wait_busy hm hb] at h
        exact stepEffect_of_block h
      · obtain rfl := Host.Outcome.next.inj ((step_wait_idle hm hb).symm.trans h)
        exact ⟨s, .keep, sameBlock_refl s, id, rfl⟩
    | pollStatus =>
      simp only [movesAfter, hm]
      by_cases hb : s.status = .busy
      · obtain rfl := Host.Outcome.next.inj ((step_pollStatus_busy hm hb).symm.trans h)
        exact ⟨s, .keep, sameBlock_refl s, id, (if_pos hb).symm⟩
      · obtain rfl := Host.Outcome.next.inj ((step_pollStatus_over hm hb).symm.trans h)
        exact ⟨s, .keep, sameBlock_refl s, id, (if_neg hb).symm⟩
    | readOutput =>
      simp only [movesAfter, hm]
      obtain rfl := Host.Outcome.next.inj ((step_readOutput hm).symm.trans h)
      exact ⟨s, .keep, sameBlock_refl s, id, rfl⟩

/-! ## The obligations about every step -/

theorem stepEffect_params {s x : State} (h : StepEffect s x) : x.params = s.params := by
  cases h with
  | keep => rfl
  | command _ _ _ heffect => exact heffect.frame.1
  | block heffect => cases heffect <;> rfl
  | reset => rfl

/-- Settles O40: no effect changes the constants. -/
theorem stepKeepsParams : Obligations.StepKeepsParams := by
  intro s t h
  obtain ⟨x, heffect, ⟨hparams, -⟩, -⟩ := step_effect h
  exact hparams.trans (stepEffect_params heffect)

/-- Settles O42: `step_effect` carries the mark. -/
theorem markIsSticky : Obligations.MarkIsSticky := by
  intro s t h
  obtain ⟨_, -, -, hmark, -⟩ := step_effect h
  exact hmark

theorem stepEffect_canonical {s x : State} (hi : s.ibuf.Canonical) (ho : s.obuf.Canonical)
    (h : StepEffect s x) : x.ibuf.Canonical ∧ x.obuf.Canonical := by
  cases h with
  | keep => exact ⟨hi, ho⟩
  | command _ _ _ heffect =>
    cases heffect with
    | keep | launch | setMode | setIlen => exact ⟨hi, ho⟩
    | store idx v => exact ⟨Memory.canonical_write hi idx v, ho⟩
  | block heffect =>
    cases heffect with
    | halt | raise => exact ⟨hi, ho⟩
    | emit out => exact ⟨hi, Memory.canonical_writeCells ho s.wp out⟩
  | reset => exact ⟨.nil, .nil⟩

/-- Settles O39: only `Memory.write` and `Memory.writeCells` change a buffer, and the reset event empties
both. -/
theorem stepKeepsBuffersCanonical : Obligations.StepKeepsBuffersCanonical := by
  intro s t hi ho h
  obtain ⟨x, heffect, ⟨-, -, -, -, -, -, -, hibuf, hobuf⟩, -⟩ := step_effect h
  rw [hibuf, hobuf]
  exact stepEffect_canonical hi ho heffect

/-- Every change of STATUS, with the state it begins in (R23, R230, R177, R182, R204). -/
theorem stepEffect_status {s x : State} (h : StepEffect s x) (hne : x.status ≠ s.status) :
    (x.status = .idle ∧ ∃ l, s.hostMoves = .reset :: l) ∨
    (x.status = .busy ∧ s.LaunchPremise ∧
      ∃ r l v, s.hostMoves = .issue r :: l ∧ decode (.hc r) = .ok (.wreg 0 v) ∧ v % 2 = 1) ∨
    (s.status = .busy ∧ x.status = .done ∧ s.rp = s.ilen) ∨
    (s.status = .busy ∧ x.status = .error ∧ s.mode = .dec ∧ s.params.invalidPolicy = .strict) := by
  cases h with
  | keep => exact absurd rfl hne
  | command hm hd _ heffect =>
    cases heffect with
    | keep | setMode | setIlen | store => exact absurd rfl hne
    | launch v hv _ hp => exact .inr (.inl ⟨rfl, hp, _, _, v, hm, hd, hv⟩)
  | block heffect =>
    cases heffect with
    | halt hb hend => exact .inr (.inr (.inl ⟨hb, rfl, hend⟩))
    | emit => exact absurd rfl hne
    | raise pos hb _ _ hraise =>
      obtain ⟨hdec, hstrict, -⟩ := groupResult_invalid hraise
      exact .inr (.inr (.inr ⟨hb, rfl, hdec, hstrict⟩))
  | reset hm => exact .inl ⟨rfl, _, hm⟩

/-- Settles O41: the codes by the table of R23, the write of STATUS by `writeRegister_readOnly`, and the
changes by `stepEffect_status`. -/
theorem statusChanges : Obligations.StatusChanges := by
  refine ⟨⟨rfl, rfl, rfl, rfl⟩, fun s v => ⟨none, rfl⟩, fun s t h hne => ?changes⟩
  case changes =>
    obtain ⟨x, heffect, ⟨-, -, -, hstatus, -⟩, -⟩ := step_effect h
    rw [hstatus] at hne ⊢
    exact stepEffect_status heffect hne

/-- Settles O26: of the four changes of STATUS only the last leads to ERROR. -/
theorem exceptionOnlyStrictDecode : Obligations.ExceptionOnlyStrictDecode := by
  intro s t h herror hne
  obtain ⟨-, -, hchanges⟩ := statusChanges
  rcases hchanges s t h (fun heq => hne (heq.symm.trans herror)) with
    ⟨hidle, -⟩ | ⟨hbusy, -⟩ | ⟨-, hdone, -⟩ | ⟨hb, -, hdec, hstrict⟩
  · cases herror.symm.trans hidle
  · cases herror.symm.trans hbusy
  · cases herror.symm.trans hdone
  · exact ⟨hb, hdec, hstrict⟩

end Sys2Proof.Proofs
end

section
/-! Proofs of the obligations about the invariant (10_state.md R21 to R28, R36, R37): each effect of a step
keeps `State.Inv`, and the reset state meets it. -/

namespace Sys2Proof.Proofs

open Sys2Proof.Machine

theorem inv_resetWith {p : Params} (hp : p.Valid) : (State.resetWith p).Inv where
  params := hp
  ilen := Nat.two_pow_pos _
  pointers := ⟨Nat.zero_le _, Nat.zero_le _⟩
  errIdx := Nat.zero_le _
  ibuf := ⟨.nil, by simp⟩
  obuf := ⟨.nil, by simp⟩
  written := fun _ ha => absurd ha (Nat.not_lt_zero _)
  idle := fun _ => ⟨rfl, rfl⟩
  busy := fun h => by cases h
  noError := fun _ => rfl
  error := fun h => by cases h

/-- Settles O38: the reset state of legal sizes, of which `State.reset` is one. -/
theorem resetMeetsInvariant : Obligations.ResetMeetsInvariant :=
  ⟨fun _ hp => inv_resetWith hp, inv_resetWith reference_valid⟩

section
variable {s x : State}

theorem encLen_zero : encLen 0 = 0 := by decide

/-- An accepted START: RP and WP at 0, where every clause about a run holds (R177). -/
theorem inv_launch (hi : s.Inv) (hp : s.LaunchPremise) : s.launch.Inv :=
  { hi with
    pointers := ⟨Nat.zero_le _, Nat.zero_le _⟩
    errIdx := Nat.zero_le _
    written := fun _ ha => absurd ha (Nat.not_lt_zero _)
    idle := fun h => by cases h
    busy := fun _ => ⟨hp, Nat.zero_le _, .inl (Nat.zero_mod _), Nat.zero_le _, fun _ => encLen_zero.symm⟩
    noError := fun _ => rfl
    error := fun h => by cases h }

/-- A host command keeps the invariant: START launches within the premise, and the registers and cells it
writes are written outside a run, ILEN with a value of LEN_W bits. -/
theorem inv_of_hostEffect {i : Instr} (hi : s.Inv) (h : HostEffect s i x)
    (hw : i.wf s.params.lenW = true) : x.Inv := by
  cases h with
  | keep => exact hi
  | launch v _ _ hp => exact inv_launch hi hp
  | setMode v hb => exact { hi with busy := fun h => absurd h hb }
  | setIlen v hb => exact { hi with ilen := of_decide_eq_true hw, busy := fun h => absurd h hb }
  | store idx v hb hidx =>
    exact { hi with
      ibuf := ⟨Memory.canonical_write hi.ibuf.1 idx v, Memory.bounded_write hi.ibuf.2 hidx v⟩
      busy := fun h => absurd h hb }

theorem inv_halt (hi : s.Inv) (hb : s.status = .busy) : s.halt.Inv :=
  { hi with
    idle := fun h => by cases h
    busy := fun h => by cases h
    noError := fun _ => hi.noError (by rw [hb]; decide)
    error := fun h => by cases h }

/-- The exception: ERRIDX lies in the group at RP, which lies inside IBUF (R148, R204). -/
theorem inv_raise (hi : s.Inv) (hb : s.status = .busy) (hlt : s.rp < s.ilen)
    (hcap : s.rp + s.groupCount ≤ s.params.icap) {pos : Nat}
    (hraise : groupResult s.mode s.params (s.groupAt s.groupCount) = .invalid pos) :
    (s.raiseInvalidCharacter (s.rp + pos)).Inv := by
  obtain ⟨hdec, hstrict, hpos⟩ := groupResult_invalid hraise
  rw [groupAt_length] at hpos
  have haligned := (inProgress_of_inv hi hb).aligned.resolve_right hlt.ne
  rw [hdec] at haligned
  have hcount := groupCount_le_four s
  exact { hi with
    errIdx := by show s.rp + pos ≤ s.params.icap; omega
    idle := fun h => by cases h
    busy := fun h => by cases h
    noError := fun h => absurd rfl h
    error := fun _ => ⟨hstrict, haligned, Nat.le_add_right _ _, by show s.rp + pos < s.rp + 4; omega⟩ }

/-- A completed group: its cells lie inside OBUF, and both pointers move as OutMax says (R63, R180). -/
theorem inv_advance (hi : s.Inv) (hb : s.status = .busy) (hlt : s.rp < s.ilen)
    (hcap : s.rp + s.groupCount ≤ s.params.icap) {out : List Byte}
    (hout : groupResult s.mode s.params (s.groupAt s.groupCount) = .emit out)
    (hroom : s.wp + out.length ≤ s.params.ocap) : (s.advance s.groupCount out).Inv := by
  have hrun := inProgress_of_inv hi hb
  have hnext := hrun.advance hlt hout
  obtain ⟨-, -, -, -, hexact⟩ := hi.busy hb
  refine { hi with
    pointers := ⟨hcap, hroom⟩
    obuf := ⟨Memory.canonical_writeCells hi.obuf.1 _ _, Memory.bounded_writeCells hi.obuf.2 hroom⟩
    written := fun a ha => Memory.written_writeCells ?written
    idle := fun h => by cases hb.symm.trans h
    busy := fun _ => ⟨hnext.premise, hnext.rp_le, hnext.aligned, hnext.wp_le, fun henc => ?exact⟩
    noError := fun _ => hi.noError (by rw [hb]; decide)
    error := fun h => by cases hb.symm.trans h }
  case written =>
    have ha' : a < s.wp + out.length := ha
    rcases Nat.lt_or_ge a s.wp with hold | hnew
    · exact .inl (hi.written a hold)
    · exact .inr ⟨hnew, ha'⟩
  case exact =>
    have hmode : s.mode = .enc := henc
    have hlen := groupAt_length s s.groupCount
    have hemit := (groupResult_emit_length hout (by rw [hlen]; exact groupCount_pos hlt)
      (by rw [hlen]; exact groupCount_le_width s)).2 hmode
    rw [hlen] at hemit
    have hsum := outMax_add (hrun.aligned.resolve_right hlt.ne) s.groupCount
    rw [hmode] at hsum
    show s.wp + out.length = encLen (s.rp + s.groupCount)
    rw [hemit, hexact hmode]
    exact hsum.symm

theorem inv_of_blockEffect (hi : s.Inv) (h : BlockEffect s x) : x.Inv := by
  cases h with
  | halt hb => exact inv_halt hi hb
  | emit out hb hlt hcap hout hroom => exact inv_advance hi hb hlt hcap hout hroom
  | raise pos hb hlt hcap hraise => exact inv_raise hi hb hlt hcap hraise

/-- The host's moves are no part of the invariant. -/
theorem inv_withMoves (hi : s.Inv) (l : List HostMove) : (s.withMoves l).Inv :=
  hi.sameBlock (sameBlock_refl s)

theorem inv_resetEvent (hi : s.Inv) : s.resetEvent.Inv :=
  (inv_resetWith hi.params).sameBlock (sameBlock_refl _)

theorem inv_of_stepEffect (hi : s.Inv) (h : StepEffect s x) : x.Inv := by
  cases h with
  | keep => exact hi
  | command _ _ hw heffect => exact inv_of_hostEffect (inv_withMoves hi _) heffect hw
  | block heffect => exact inv_of_blockEffect (inv_withMoves hi _) heffect
  | reset => exact inv_resetEvent (inv_withMoves hi _)

end

/-- Settles O37: every effect of a step keeps the invariant, and the step's state has the effect's block. -/
theorem stepKeepsInvariant : Obligations.StepKeepsInvariant := by
  intro s t hi h
  obtain ⟨x, heffect, hsame, -⟩ := step_effect h
  exact (inv_of_stepEffect hi heffect).sameBlock hsame

end Sys2Proof.Proofs
end

section
/-! Proofs of the obligations about the frames of the block operations and the cells they read (20_memory.md
R64; 40_encoder.md section 2; 41_decoder.md section 2). -/

namespace Sys2Proof.Proofs

open Sys2Proof.Machine

/-- Each of the nine block operations halts or consumes a group. -/
theorem blockOperation_kinds {i : Instr} (h : i ∈ blockOperations) :
    (∃ m, ∀ s, exec i s = haltOperation m s) ∨ ∃ m cnt op, groupOperation i = some (m, cnt, op) := by
  cases i
  case enc1 | enc2 | enc3 | dec1 | dec2 | dec3 | dec4 => exact .inr ⟨_, _, _, rfl⟩
  case ehalt => exact .inl ⟨.enc, fun _ => rfl⟩
  case dhalt => exact .inl ⟨.dec, fun _ => rfl⟩
  case rreg | wreg | rbuf | wbuf => simp [blockOperations] at h

theorem groupOperation_of_encoder {i : Instr} (h : i ∈ [Instr.enc1, .enc2, .enc3]) :
    ∃ cnt op, groupOperation i = some (.enc, cnt, op) := by
  fin_cases h <;> exact ⟨_, _, rfl⟩

theorem exec_halting {i : Instr} (h : i ∈ [Instr.ehalt, .dhalt]) :
    ∃ m, ∀ s, exec i s = haltOperation m s := by
  fin_cases h
  · exact ⟨.enc, fun _ => rfl⟩
  · exact ⟨.dec, fun _ => rfl⟩

/-- Settles O19: an encoder operation emits four cells, and the halting step is `State.halt`. -/
theorem encodeFrame : Obligations.EncodeFrame := by
  refine ⟨fun i s t hi h => ?encoder, fun i s t hi h => ?halting⟩
  case encoder =>
    obtain ⟨cnt, op, hop⟩ := groupOperation_of_encoder hi
    rw [exec_groupOperation hop] at h
    obtain ⟨-, -, d, hcase⟩ := blockOperation_next h
    obtain ⟨four, hfour, hlen⟩ :=
      encoderGroup_emits hop s.params (fetchCells_length s.ibuf s.draws s.rp cnt)
    rw [hfour] at hcase
    rcases hcase with ⟨out, hout, -, rfl⟩ | ⟨pos, hraise, -⟩
    · cases hout
      refine ⟨rfl, rfl, rfl, rfl, rfl, rfl, rfl, rfl, rfl, congrArg (s.wp + ·) hlen, fun a ha => ?_⟩
      exact Memory.read_writeCells_outside s.obuf (hlen.symm ▸ ha)
    · cases hraise
  case halting =>
    obtain ⟨m, hexec⟩ := exec_halting hi
    obtain ⟨-, rfl⟩ := haltOperation_next ((hexec s).symm.trans h)
    exact ⟨rfl, rfl⟩

theorem groupOperation_of_mem_decoder {i : Instr} (h : i ∈ [Instr.dec1, .dec2, .dec3, .dec4]) :
    ∃ cnt op, groupOperation i = some (.dec, cnt, op) := by
  fin_cases h <;> exact ⟨_, _, rfl⟩

theorem outMax_dec_le_three {n : Nat} (h : n ≤ 4) : outMax .dec n ≤ 3 := by
  interval_cases n <;> decide

/-- Settles O27: a decoder operation stores at most three cells at WP, and the exception none. -/
theorem decodeFrame : Obligations.DecodeFrame := by
  intro i s t hi h
  obtain ⟨cnt, op, hop⟩ := groupOperation_of_mem_decoder hi
  rw [exec_groupOperation hop] at h
  obtain ⟨-, -, d, ⟨out, hout, -, rfl⟩ | ⟨pos, -, rfl⟩⟩ := blockOperation_next h
  · have hgrp := fetchCells_length s.ibuf s.draws s.rp cnt
    obtain ⟨hpos, hle⟩ := groupOperation_count hop
    rw [groupOperation_eq_groupResult hop s.params hgrp] at hout
    have hlen := (groupResult_emit_length hout (hgrp.symm ▸ hpos) (hgrp.symm ▸ hle)).1
    rw [hgrp] at hlen
    have hthree := hlen.trans (outMax_dec_le_three hle)
    refine ⟨rfl, rfl, rfl, rfl, rfl, rfl, rfl, Nat.le_add_right s.wp _, Nat.add_le_add_left hthree s.wp,
      fun a ha => Memory.read_writeCells_outside s.obuf ha, .inl ⟨rfl, rfl⟩⟩
  · exact ⟨rfl, rfl, rfl, rfl, rfl, rfl, rfl, Nat.le_refl s.wp, Nat.le_add_right s.wp 3, fun _ _ => rfl,
      .inr ⟨rfl, rfl, rfl, rfl⟩⟩

/-- A group operation acts alike on two input buffers that agree on the cells of its group, but for the
buffer. -/
theorem blockOperation_congr_ibuf {md : Mode} {cnt : Nat} {op : Params → List Byte → GroupResult}
    {s t : State} {m : Memory} (hm : ∀ a, a < s.ilen → m.read a = s.ibuf.read a)
    (h : blockOperation md cnt op s = .next t) :
    blockOperation md cnt op { s with ibuf := m } = .next { t with ibuf := m } := by
  obtain ⟨hsel, hcap, _, hcase⟩ := blockOperation_next h
  have hgroup := hsel.group_le
  have hfetch : fetchCells m s.draws s.rp cnt = fetchCells s.ibuf s.draws s.rp cnt :=
    fetchCells_congr (fun b _ hb => hm b (by omega)) s.draws
  have hsel' : ({ s with ibuf := m } : State).Selects md cnt := hsel
  rcases hcase with ⟨out, hout, hroom, -⟩ | ⟨pos, hraise, -⟩
  · obtain rfl := Host.Outcome.next.inj ((blockOperation_emit hsel hcap hout hroom).symm.trans h)
    have hout' : op s.params (fetchCells m s.draws s.rp cnt).1 = .emit out := by rw [hfetch, hout]
    rw [← hfetch]
    exact blockOperation_emit hsel' hcap hout' hroom
  · obtain rfl := Host.Outcome.next.inj ((blockOperation_invalid hsel hcap hraise).symm.trans h)
    have hraise' : op s.params (fetchCells m s.draws s.rp cnt).1 = .invalid pos := by rw [hfetch, hraise]
    rw [← hfetch]
    exact blockOperation_invalid hsel' hcap hraise'

/-- Settles O28: a halting step reads no cell, and a group lies below ILEN. -/
theorem inputBeyondIlenIrrelevant : Obligations.InputBeyondIlenIrrelevant := by
  intro i s t m hi hm h
  rcases blockOperation_kinds hi with ⟨md, hexec⟩ | ⟨md, cnt, op, hop⟩
  · rw [hexec] at h ⊢
    obtain ⟨hsel, rfl⟩ := haltOperation_next h
    exact haltOperation_selected (s := { s with ibuf := m }) hsel
  · rw [exec_groupOperation hop] at h ⊢
    exact blockOperation_congr_ibuf hm h

end Sys2Proof.Proofs
end

section
/-! Proofs of the obligations about the reverse ROM and the character classes (00_scope.md R16; 10_state.md R30
to R34; 30_encoding.md R99). What a table look-up can show is shown for the 64 entries; a code outside the
alphabet is one that no entry has. -/

namespace Sys2Proof.Proofs

open Sys2Proof.Machine

theorem idxOf?_alpha : ∀ i : Sextet, alphaTable.idxOf? (alpha i) = some i.toNat := by decide

@[simp] theorem isAlpha_alpha : ∀ i : Sextet, isAlpha (alpha i) = true := by decide

theorem isAlpha_of_mem_alphaTable : ∀ c ∈ alphaTable, isAlpha c = true := by decide

theorem exists_alpha_of_isAlpha : ∀ c : Byte, isAlpha c = true → ∃ i, alpha i = c := by
  have hrev : ∀ c : Byte, isAlpha c = true → alpha (rev 0#6 c) = c := by decide
  exact fun c hc => ⟨_, hrev c hc⟩

@[simp] theorem rev_alpha (d i : Sextet) : rev d (alpha i) = i := by
  simp [rev, idxOf?_alpha]

theorem alpha_rev (d : Sextet) {c : Byte} (h : isAlpha c = true) : alpha (rev d c) = c := by
  obtain ⟨i, rfl⟩ := exists_alpha_of_isAlpha c h
  rw [rev_alpha]

theorem rev_of_not_isAlpha (d : Sextet) {c : Byte} (h : isAlpha c = false) : rev d c = d := by
  have hmem : c ∉ alphaTable := fun hm => by simp [isAlpha_of_mem_alphaTable c hm] at h
  simp [rev, List.idxOf?_eq_none_iff.mpr hmem]

/-- R16: the alphabet by the ranges of its codes. -/
theorem isAlpha_iff_range (c : Byte) : isAlpha c = true ↔
    (0x41 ≤ c.toNat ∧ c.toNat ≤ 0x5A) ∨ (0x61 ≤ c.toNat ∧ c.toNat ≤ 0x7A) ∨
    (0x30 ≤ c.toNat ∧ c.toNat ≤ 0x39) ∨ c.toNat = 0x2B ∨ c.toNat = 0x2F := by
  simp [isAlpha, BitVec.le_def, ← BitVec.toNat_inj, or_assoc]

/-- An alphabet code's index undoes the closed form of ALPHA, block by block; any other code lies in no
range. -/
theorem toNat_rev (d : Sextet) (c : Byte) : (rev d c).toNat =
    if 0x41 ≤ c.toNat ∧ c.toNat ≤ 0x5A then c.toNat - 0x41
    else if 0x61 ≤ c.toNat ∧ c.toNat ≤ 0x7A then c.toNat - 0x61 + 26
    else if 0x30 ≤ c.toNat ∧ c.toNat ≤ 0x39 then c.toNat - 0x30 + 52
    else if c.toNat = 0x2B then 62 else if c.toNat = 0x2F then 63 else d.toNat := by
  by_cases hc : isAlpha c = true
  · obtain ⟨i, rfl⟩ := exists_alpha_of_isAlpha c hc
    have hclosed := alphaClosedForm i
    have hi : i.toNat < 64 := i.isLt
    rw [rev_alpha]
    generalize (alpha i).toNat = n at hclosed ⊢
    split_ifs at hclosed <;> split_ifs <;> omega
  · rw [rev_of_not_isAlpha d (Bool.eq_false_of_not_eq_true hc)]
    rw [isAlpha_iff_range] at hc
    split_ifs <;> omega

/-- Settles O11: the look-up of an entry, of a code outside the table, and the closed form. -/
theorem revInvertsAlpha : Obligations.RevInvertsAlpha := by
  refine ⟨rev_alpha, fun d c hc => rev_of_not_isAlpha d ?outside, fun d c => alpha_rev d, toNat_rev⟩
  case outside =>
    refine Bool.eq_false_of_not_eq_true fun h => ?_
    obtain ⟨i, hi⟩ := exists_alpha_of_isAlpha c h
    exact hc i hi

@[simp] theorem isAlpha_padMarker : isAlpha padMarker = false := by decide

@[simp] theorem isPad_padMarker : isPad padMarker = true := by decide

theorem isPad_iff (c : Byte) : isPad c = true ↔ c = padMarker := by simp [isPad]

theorem isPad_of_isAlpha {c : Byte} (h : isAlpha c = true) : isPad c = false := by
  refine Bool.eq_false_of_not_eq_true fun hpad => ?_
  rw [(isPad_iff c).mp hpad, isAlpha_padMarker] at h
  cases h

@[simp] theorem isPad_alpha (i : Sextet) : isPad (alpha i) = false := isPad_of_isAlpha (isAlpha_alpha i)

@[simp] theorem isInvalid_alpha (i : Sextet) : isInvalid (alpha i) = false := by simp [isInvalid]

@[simp] theorem isInvalid_padMarker : isInvalid padMarker = false := by simp [isInvalid]

theorem alpha_injective : Function.Injective alpha :=
  Function.LeftInverse.injective (rev_alpha 0#6)

/-- Settles O12: REV undoes ALPHA, so its entries are distinct, and the Padding Marker is outside the
alphabet. -/
theorem characterClasses : Obligations.CharacterClasses := by
  refine ⟨fun i j h => alpha_injective h, fun i h => ?pad, fun c => ⟨exists_alpha_of_isAlpha c, ?entry⟩,
    isPad_iff, fun c => ?invalid⟩
  case pad => exact Bool.false_ne_true ((isPad_alpha i).symm.trans ((congrArg isPad h).trans isPad_padMarker))
  case entry =>
    rintro ⟨i, rfl⟩
    exact isAlpha_alpha i
  case invalid =>
    have hpad : isPad c = false ↔ c ≠ 0x3D#8 := decide_eq_false_iff_not
    rw [isInvalid, Bool.and_eq_true, Bool.not_eq_true', Bool.not_eq_true', hpad]

end Sys2Proof.Proofs
end

section
/-! Proofs of the obligations about the slices of a group (30_encoding.md R91 to R95) and the effective length
(41_decoder.md R145). A field is compared with its slice bit by bit. -/

namespace Sys2Proof.Proofs

open Sys2Proof.Machine

theorem eq_extractLsb' {n k : Nat} {f : BitVec n} {g : BitVec 24}
    (h : ∀ i, i < n → f.getLsbD i = g.getLsbD (k + i)) : f = g.extractLsb' k n := by
  refine BitVec.eq_of_getLsbD_eq fun i hi => ?_
  rw [BitVec.getLsbD_extractLsb', h i hi, decide_eq_true hi, Bool.true_and]

/-- A vector is the slice of G from bit `k` on when its bits are those of the bytes there (R91). -/
theorem eq_slice_groupG {n k : Nat} {f : BitVec n} {b0 b1 b2 : Byte}
    (h : ∀ i, i < n → f.getLsbD i = if k + i < 8 then b2.getLsbD (k + i)
      else if k + i < 16 then b1.getLsbD (k + i - 8) else b0.getLsbD (k + i - 16)) :
    f = (groupG b0 b1 b2).extractLsb' k n :=
  eq_extractLsb' fun i hi => (h i hi).trans (groupG_getLsbD b0 b1 b2 (k + i)).symm

/-- A vector is the slice of H from bit `k` on when its bits are those of the sextets there (R94). -/
theorem eq_slice_groupH {n k : Nat} {f : BitVec n} {s1 s2 s3 s4 : Sextet}
    (h : ∀ i, i < n → f.getLsbD i = if k + i < 6 then s4.getLsbD (k + i)
      else if k + i < 12 then s3.getLsbD (k + i - 6)
      else if k + i < 18 then s2.getLsbD (k + i - 12) else s1.getLsbD (k + i - 18)) :
    f = (groupH s1 s2 s3 s4).extractLsb' k n :=
  eq_extractLsb' fun i hi => (h i hi).trans (groupH_getLsbD s1 s2 s3 s4 (k + i)).symm

section
variable (b0 b1 b2 : Byte)

theorem field1_eq_slice : field1 b0 = (groupG b0 b1 b2).extractLsb' 18 6 :=
  eq_slice_groupG fun i hi => by interval_cases i <;> simp [field1]

theorem field2_eq_slice : field2 b0 b1 = (groupG b0 b1 b2).extractLsb' 12 6 :=
  eq_slice_groupG fun i hi => by interval_cases i <;> simp [field2]

theorem field3_eq_slice : field3 b1 b2 = (groupG b0 b1 b2).extractLsb' 6 6 :=
  eq_slice_groupG fun i hi => by interval_cases i <;> simp [field3]

theorem field4_eq_slice : field4 b2 = (groupG b0 b1 b2).extractLsb' 0 6 :=
  eq_slice_groupG fun i hi => by interval_cases i <;> simp [field4]

/-- The bytes of G (R91). -/
theorem bytes_of_groupG : (groupG b0 b1 b2).extractLsb' 16 8 = b0 ∧
    (groupG b0 b1 b2).extractLsb' 8 8 = b1 ∧ (groupG b0 b1 b2).extractLsb' 0 8 = b2 :=
  ⟨(eq_slice_groupG fun i hi => by interval_cases i <;> simp).symm,
    (eq_slice_groupG fun i hi => by interval_cases i <;> simp).symm,
    (eq_slice_groupG fun i hi => by interval_cases i <;> simp).symm⟩

end

/-- A final group has the missing byte 0 (R122, R123). -/
theorem field2Final_eq (b0 : Byte) : field2Final b0 = field2 b0 0#8 := by
  simp [field2Final, field2]

theorem field3Final_eq (b1 : Byte) : field3Final b1 = field3 b1 0#8 := by
  simp [field3Final, field3]

/-- Settles O13, field by field. -/
theorem fieldsAreSlicesOfG : Obligations.FieldsAreSlicesOfG := fun b0 b1 b2 =>
  ⟨field1_eq_slice b0 b1 b2, field2_eq_slice b0 b1 b2, field3_eq_slice b0 b1 b2, field4_eq_slice b0 b1 b2,
    field2Final_eq b0, field3Final_eq b1⟩

section
variable (s1 s2 s3 s4 : Sextet)

theorem byte0_eq_slice : byte0 s1 s2 = (groupH s1 s2 s3 s4).extractLsb' 16 8 :=
  eq_slice_groupH fun i hi => by interval_cases i <;> simp [byte0]

theorem byte1_eq_slice : byte1 s2 s3 = (groupH s1 s2 s3 s4).extractLsb' 8 8 :=
  eq_slice_groupH fun i hi => by interval_cases i <;> simp [byte1]

theorem byte2_eq_slice : byte2 s3 s4 = (groupH s1 s2 s3 s4).extractLsb' 0 8 :=
  eq_slice_groupH fun i hi => by interval_cases i <;> simp [byte2]

/-- The sextets of H (R94). -/
theorem sextets_of_groupH : (groupH s1 s2 s3 s4).extractLsb' 18 6 = s1 ∧
    (groupH s1 s2 s3 s4).extractLsb' 12 6 = s2 ∧ (groupH s1 s2 s3 s4).extractLsb' 6 6 = s3 ∧
    (groupH s1 s2 s3 s4).extractLsb' 0 6 = s4 :=
  ⟨(eq_slice_groupH fun i hi => by interval_cases i <;> simp).symm,
    (eq_slice_groupH fun i hi => by interval_cases i <;> simp).symm,
    (eq_slice_groupH fun i hi => by interval_cases i <;> simp).symm,
    (eq_slice_groupH fun i hi => by interval_cases i <;> simp).symm⟩

end

/-- Settles O14, byte by byte. -/
theorem bytesAreSlicesOfH : Obligations.BytesAreSlicesOfH := fun s1 s2 s3 s4 =>
  ⟨byte0_eq_slice s1 s2 s3 s4, byte1_eq_slice s1 s2 s3 s4, byte2_eq_slice s1 s2 s3 s4⟩

/-! ## Fields and bytes undo each other -/

/-- The 24-bit value is the same whether a group is cut into three bytes or four fields. -/
theorem groupH_fields (b0 b1 b2 : Byte) :
    groupH (field1 b0) (field2 b0 b1) (field3 b1 b2) (field4 b2) = groupG b0 b1 b2 := by
  refine BitVec.eq_of_getLsbD_eq fun i hi => ?_
  rw [field1_eq_slice b0 b1 b2, field2_eq_slice b0 b1 b2, field3_eq_slice b0 b1 b2,
    field4_eq_slice b0 b1 b2, groupH_getLsbD]
  simp only [BitVec.getLsbD_extractLsb']
  split_ifs with h6 h12 h18
  · simp [h6]
  · simp [show i - 6 < 6 by omega, show 6 + (i - 6) = i by omega]
  · simp [show i - 12 < 6 by omega, show 12 + (i - 12) = i by omega]
  · simp [show i - 18 < 6 by omega, show 18 + (i - 18) = i by omega]

theorem groupG_bytes (s1 s2 s3 s4 : Sextet) :
    groupG (byte0 s1 s2) (byte1 s2 s3) (byte2 s3 s4) = groupH s1 s2 s3 s4 := by
  refine BitVec.eq_of_getLsbD_eq fun i hi => ?_
  rw [byte0_eq_slice s1 s2 s3 s4, byte1_eq_slice s1 s2 s3 s4, byte2_eq_slice s1 s2 s3 s4, groupG_getLsbD]
  simp only [BitVec.getLsbD_extractLsb']
  split_ifs with h8 h16
  · simp [h8]
  · simp [show i - 8 < 8 by omega, show 8 + (i - 8) = i by omega]
  · simp [show i - 16 < 8 by omega, show 16 + (i - 16) = i by omega]

section
variable (b0 b1 b2 : Byte)

@[simp] theorem byte0_fields : byte0 (field1 b0) (field2 b0 b1) = b0 := by
  rw [byte0_eq_slice _ _ (field3 b1 0#8) (field4 0#8), groupH_fields]
  exact (bytes_of_groupG b0 b1 0#8).1

@[simp] theorem byte1_fields : byte1 (field2 b0 b1) (field3 b1 b2) = b1 := by
  rw [byte1_eq_slice (field1 b0) _ _ (field4 b2), groupH_fields]
  exact (bytes_of_groupG b0 b1 b2).2.1

@[simp] theorem byte2_fields : byte2 (field3 b1 b2) (field4 b2) = b2 := by
  rw [byte2_eq_slice (field1 0#8) (field2 0#8 b1), groupH_fields]
  exact (bytes_of_groupG 0#8 b1 b2).2.2

end

section
variable (s1 s2 s3 s4 : Sextet)

@[simp] theorem field1_bytes : field1 (byte0 s1 s2) = s1 := by
  rw [field1_eq_slice _ (byte1 s2 0#6) (byte2 0#6 0#6), groupG_bytes]
  exact (sextets_of_groupH s1 s2 0#6 0#6).1

@[simp] theorem field2_bytes : field2 (byte0 s1 s2) (byte1 s2 s3) = s2 := by
  rw [field2_eq_slice _ _ (byte2 s3 0#6), groupG_bytes]
  exact (sextets_of_groupH s1 s2 s3 0#6).2.1

@[simp] theorem field3_bytes : field3 (byte1 s2 s3) (byte2 s3 s4) = s3 := by
  rw [field3_eq_slice (byte0 0#6 s2), groupG_bytes]
  exact (sextets_of_groupH 0#6 s2 s3 s4).2.2.1

@[simp] theorem field4_bytes : field4 (byte2 s3 s4) = s4 := by
  rw [field4_eq_slice (byte0 0#6 0#6) (byte1 0#6 s3), groupG_bytes]
  exact (sextets_of_groupH 0#6 0#6 s3 s4).2.2.2

end

/-! ## The effective length -/

theorem effLen_passthrough {p : Params} (h : p.padMode = .passthrough) (grp : List Byte) :
    effLen p grp = grp.length := by
  simp only [effLen, h]

theorem effLen_truncate {p : Params} (h : p.padMode = .truncate) (grp : List Byte) :
    effLen p grp = min grp.length (grp.findIdx isPad) := by
  simp only [effLen, h]

/-- A group with no pad counts whole, in either PAD_MODE (R145). -/
theorem effLen_of_no_pad (p : Params) {grp : List Byte} (h : ∀ c ∈ grp, isPad c = false) :
    effLen p grp = grp.length := by
  cases hp : p.padMode with
  | passthrough => exact effLen_passthrough hp grp
  | truncate => rw [effLen_truncate hp, List.findIdx_eq_length.mpr h, Nat.min_self]

/-- In TRUNCATE the characters before the first pad count (R145). -/
theorem effLen_of_pad {p : Params} (hp : p.padMode = .truncate) {before after : List Byte}
    (h : ∀ c ∈ before, isPad c = false) : effLen p (before ++ padMarker :: after) = before.length := by
  rw [effLen_truncate hp, findIdx_append_cons h isPad_padMarker]
  simp

/-- Settles O24, PAD_MODE by PAD_MODE. -/
theorem emittedCount : Obligations.EmittedCount :=
  ⟨fun _ grp hp => effLen_passthrough hp grp, fun p _ _ h => effLen_of_no_pad p h,
    fun _ _ _ hp h => effLen_of_pad hp h, rfl, rfl, rfl, rfl, rfl⟩

end Sys2Proof.Proofs
end

section
/-! The whole-buffer functions group by group: proofs of the obligations about the recursion and the length of
`decode` (41_decoder.md R150, R151) and about the shape of `encode` (40_encoder.md R130, R131). -/

namespace Sys2Proof.Proofs

open Sys2Proof.Machine

/-- Induction over the groups of `w` cells of a sequence, the last of which may be shorter. -/
theorem groupInduction {P : List Byte → Prop} {w : Nat} (hw : 0 < w) (nil : P [])
    (group : ∀ l, l ≠ [] → P (l.drop w) → P l) (l : List Byte) : P l := by
  induction h : l.length using Nat.strong_induction_on generalizing l with
  | _ n ih =>
    by_cases hl : l = []
    · exact hl ▸ nil
    · have hpos := List.length_pos_iff.mpr hl
      exact group l hl (ih (l.drop w).length (by rw [List.length_drop]; omega) _ rfl)

/-- OutMax adds up over the first group and the rest (R17). -/
theorem outMax_length_split (m : Mode) (l : List Byte) : outMax m l.length =
    outMax m (l.take (groupWidth m)).length + outMax m (l.drop (groupWidth m)).length := by
  have hzero : outMax m 0 = 0 := by cases m <;> decide
  rw [List.length_take, List.length_drop]
  rcases Nat.le_total (groupWidth m) l.length with h | h
  · rw [Nat.min_eq_left h, ← outMax_add (Nat.mod_self _), Nat.add_sub_cancel' h]
  · rw [Nat.min_eq_right h, Nat.sub_eq_zero_of_le h, hzero, Nat.add_zero]

/-! ## `decode` -/

section
variable {p : Params} {r : Nat} {out str bs : List Byte}

@[simp] theorem decodeGo_nil (p : Params) (r : Nat) (out : List Byte) : decodeGo p r out [] = .ok out := by
  simp only [decodeGo]

/-- How `decode` goes on with what its first group yields (R150). -/
def decodeAfter (p : Params) (r : Nat) (out str : List Byte) : GroupResult → DecodeResult
  | .emit bs => decodeGo p (r + (str.take 4).length) (out ++ bs) (str.drop 4)
  | .invalid pos => .err (r + pos) out

theorem decodeGo_group (hstr : str ≠ []) :
    decodeGo p r out str = decodeAfter p r out str (groupResult .dec p (str.take 4)) := by
  match str, hstr with
  | [c1], _ =>
    rw [decodeGo, show groupResult .dec p ([c1].take 4) = dec1Group p [c1] from rfl]
    cases dec1Group p [c1] <;> simp [decodeAfter]
  | [c1, c2], _ =>
    rw [decodeGo, show groupResult .dec p ([c1, c2].take 4) = dec2Group p [c1, c2] from rfl]
    cases dec2Group p [c1, c2] <;> simp [decodeAfter]
  | [c1, c2, c3], _ =>
    rw [decodeGo, show groupResult .dec p ([c1, c2, c3].take 4) = dec3Group p [c1, c2, c3] from rfl]
    cases dec3Group p [c1, c2, c3] <;> simp [decodeAfter]
  | c1 :: c2 :: c3 :: c4 :: t, _ =>
    rw [decodeGo, show groupResult .dec p ((c1 :: c2 :: c3 :: c4 :: t).take 4) =
      dec4Group p [c1, c2, c3, c4] from rfl]
    cases dec4Group p [c1, c2, c3, c4] <;> simp [decodeAfter]

theorem decodeGo_of_emit (hstr : str ≠ []) (h : groupResult .dec p (str.take 4) = .emit bs) :
    decodeGo p r out str = decodeGo p (r + (str.take 4).length) (out ++ bs) (str.drop 4) := by
  rw [decodeGo_group hstr, h, decodeAfter]

theorem decodeGo_of_invalid {pos : Nat} (hstr : str ≠ [])
    (h : groupResult .dec p (str.take 4) = .invalid pos) : decodeGo p r out str = .err (r + pos) out := by
  rw [decodeGo_group hstr, h, decodeAfter]

/-- A last group that emits ends the text. -/
theorem decodeGo_of_last (hstr : str ≠ []) (hlen : str.length ≤ 4)
    (h : groupResult .dec p str = .emit bs) : decodeGo p r out str = .ok (out ++ bs) := by
  rw [decodeGo_of_emit hstr ((List.take_of_length_le hlen).symm ▸ h), List.drop_of_length_le hlen,
    decodeGo_nil]

end

/-- Settles O44: the group's result is its STRICT check, else its bytes. -/
theorem decodeByGroups : Obligations.DecodeByGroups := by
  intro p r out str
  refine ⟨fun h => h ▸ decodeGo_nil p r out, fun hstr => ?group, rfl⟩
  case group =>
    intro grp
    split_ifs with hbad
    · exact decodeGo_of_invalid hstr (checkedEmit_invalid hbad)
    · exact decodeGo_of_emit hstr (checkedEmit_emit hbad)

section
variable {p : Params} {str : List Byte}

theorem take_width_length_pos {m : Mode} (hstr : str ≠ []) : 0 < (str.take (groupWidth m)).length := by
  have hpos := List.length_pos_iff.mpr hstr
  cases m <;> simp only [groupWidth, List.length_take] <;> omega

theorem take_width_length_le (m : Mode) (str : List Byte) :
    (str.take (groupWidth m)).length ≤ groupWidth m := List.length_take_le _ _

/-- `decode` yields at most DecLenMax bytes (R151). -/
theorem decodeGo_bytes_length_le : ∀ r out,
    (decodeGo p r out str).bytes.length ≤ out.length + decLenMax str.length := by
  induction str using groupInduction (w := 4) (by decide) with
  | nil => intro r out; simp [DecodeResult.bytes]
  | group str hstr ih =>
    intro r out
    have hsplit := outMax_length_split .dec str
    cases h : groupResult .dec p (str.take 4) with
    | emit bs =>
      have hbs := (groupResult_emit_length h (take_width_length_pos (m := .dec) hstr)
        (take_width_length_le .dec str)).1
      have hrest := ih (r + (str.take 4).length) (out ++ bs)
      rw [decodeGo_of_emit hstr h]
      simp only [outMax, groupWidth, List.length_append] at *
      omega
    | invalid pos =>
      rw [decodeGo_of_invalid hstr h]
      exact Nat.le_add_right _ _

/-- In PASSTHROUGH every group counts whole, so an `Ok` result has DecLenMax bytes (R151). -/
theorem decodeGo_length_passthrough (hp : p.padMode = .passthrough) : ∀ r out ys,
    decodeGo p r out str = .ok ys → ys.length = out.length + decLenMax str.length := by
  induction str using groupInduction (w := 4) (by decide) with
  | nil =>
    rintro r out ys h
    rw [decodeGo_nil] at h
    cases h
    rfl
  | group str hstr ih =>
    intro r out ys h
    have hsplit := outMax_length_split .dec str
    by_cases hbad : p.invalidPolicy = .strict ∧ (str.take 4).any isInvalid = true
    · rw [decodeGo_of_invalid hstr (checkedEmit_invalid hbad)] at h
      cases h
    · rw [decodeGo_of_emit hstr (checkedEmit_emit hbad)] at h
      have hlen := take_width_length_le .dec str
      have hbs := length_take_reconstruct p hlen
      have htail : tail (str.take 4).length = decLenMax (str.take 4).length := by
        have hle : (str.take 4).length ≤ 4 := hlen
        interval_cases (str.take 4).length <;> rfl
      rw [effLen_passthrough hp] at hbs
      have hrest := ih _ _ _ h
      simp only [outMax, groupWidth, List.length_append, effLen_passthrough hp] at *
      omega

/-- Under PERMISSIVE no group raises. -/
theorem decodeGo_permissive (hp : p.invalidPolicy = .permissive) : ∀ r out,
    ∃ ys, decodeGo p r out str = .ok ys := by
  induction str using groupInduction (w := 4) (by decide) with
  | nil => exact fun r out => ⟨out, decodeGo_nil p r out⟩
  | group str hstr ih =>
    intro r out
    have hgood : ¬ (p.invalidPolicy = .strict ∧ (str.take 4).any isInvalid = true) := by simp [hp]
    rw [decodeGo_of_emit hstr (checkedEmit_emit hgood)]
    exact ih _ _

end

/-- Settles O48, from the three inductions over groups, which begin with no bytes. -/
theorem decodeLength : Obligations.DecodeLength := by
  intro p str
  refine ⟨?atMost, fun ys hp h => ?exact, fun hp => decodeGo_permissive hp 0 []⟩
  case atMost => simpa [decodeChars] using decodeGo_bytes_length_le (p := p) (str := str) 0 []
  case exact => simpa using decodeGo_length_passthrough hp 0 [] ys h

/-! ## `encode` -/

theorem encodeBytes_append {b1 : List Byte} (h : b1.length % 3 = 0) (b2 : List Byte) :
    encodeBytes (b1 ++ b2) = encodeBytes b1 ++ encodeBytes b2 := by
  induction b1 using groupsOfThree with
  | nil => rfl
  | one a => simp at h
  | two a b => simp at h
  | three a b c t ih =>
    have ht : t.length % 3 = 0 := by simp only [List.length_cons] at h; omega
    simp only [List.cons_append, encodeBytes, ih ht, List.append_assoc]

/-- Settles O46. -/
theorem encodeConcat : Obligations.EncodeConcat := fun _ b2 h => encodeBytes_append h b2

theorem encodeBytes_length (bs : List Byte) : (encodeBytes bs).length = encLen bs.length := by
  induction bs using groupsOfThree with
  | nil => rfl
  | one a => simp [encodeBytes, enc1Out, encLen]
  | two a b => simp [encodeBytes, enc2Out, encLen]
  | three a b c t ih =>
    simp only [encodeBytes, List.length_append, List.length_cons, ih, encLen]
    simp only [enc3Out, List.length_cons, List.length_nil]
    omega

/-- A sequence is full groups of three, then none, one or two bytes. -/
theorem full_or_final (bs : List Byte) : ∃ full, full.length % 3 = 0 ∧
    (bs = full ∨ (∃ a, bs = full ++ [a]) ∨ ∃ a b, bs = full ++ [a, b]) := by
  induction bs using groupsOfThree with
  | nil => exact ⟨[], rfl, .inl rfl⟩
  | one a => exact ⟨[], rfl, .inr (.inl ⟨a, rfl⟩)⟩
  | two a b => exact ⟨[], rfl, .inr (.inr ⟨a, b, rfl⟩)⟩
  | three a b c t ih =>
    obtain ⟨full, hfull, hbs⟩ := ih
    refine ⟨a :: b :: c :: full, by simp only [List.length_cons]; omega, ?_⟩
    simpa using hbs

/-- Full groups encode to alphabet characters alone. -/
theorem isAlpha_of_mem_encodeBytes {full : List Byte} (h : full.length % 3 = 0) :
    ∀ c ∈ encodeBytes full, isAlpha c = true := by
  induction full using groupsOfThree with
  | nil => simp [encodeBytes]
  | one a => simp at h
  | two a b => simp at h
  | three a b c t ih =>
    have ht : t.length % 3 = 0 := by simp only [List.length_cons] at h; omega
    have hrest := ih ht
    simpa [encodeBytes, enc3Out] using hrest

/-- The final group of one byte is that of a full group with the missing bytes 0, but for its two markers. -/
theorem encodeBytes_one (a : Byte) : encodeBytes [a] =
    [alpha (field1 a), alpha (field2 a 0#8), padMarker, padMarker] := by
  rw [encodeBytes, enc1Out, field2Final_eq]

theorem encodeBytes_two (a b : Byte) : encodeBytes [a, b] =
    [alpha (field1 a), alpha (field2 a b), alpha (field3 b 0#8), padMarker] := by
  rw [encodeBytes, enc2Out, field3Final_eq]

/-- Settles O45: the alphabet characters are those of the full groups and of the final one. -/
theorem encodeShape : Obligations.EncodeShape := by
  intro bs
  refine ⟨encodeBytes_length bs, ?shape⟩
  case shape =>
    obtain ⟨full, hfull, rfl | ⟨a, rfl⟩ | ⟨a, b, rfl⟩⟩ := full_or_final bs
    · refine ⟨encodeBytes bs, ?_, isAlpha_of_mem_encodeBytes hfull⟩
      simp [hfull]
    · refine ⟨encodeBytes full ++ [alpha (field1 a), alpha (field2 a 0#8)], ?_, ?_⟩
      · have hpads : (3 - (full ++ [a]).length % 3) % 3 = 2 := by simp; omega
        rw [encodeBytes_append hfull, encodeBytes_one, hpads]
        simp [List.replicate, padMarker]
      · simpa [or_imp, forall_and] using isAlpha_of_mem_encodeBytes hfull
    · refine ⟨encodeBytes full ++ [alpha (field1 a), alpha (field2 a b), alpha (field3 b 0#8)], ?_, ?_⟩
      · have hpads : (3 - (full ++ [a, b]).length % 3) % 3 = 1 := by simp; omega
        rw [encodeBytes_append hfull, encodeBytes_two, hpads]
        simp [List.replicate, padMarker]
      · simpa [or_imp, forall_and] using isAlpha_of_mem_encodeBytes hfull

end Sys2Proof.Proofs
end

section
/-! Proofs of the obligations about the round trips (41_decoder.md section 6, R155 to R157). A text is full
groups, on which `decode` undoes `encode` whatever the straps, and a final group, which each law treats in its
own way. -/

namespace Sys2Proof.Proofs

open Sys2Proof.Machine

/-! ## Groups that decode -/

/-- A group with no invalid character emits, under either policy (R148). -/
theorem groupResult_of_valid (p : Params) {grp : List Byte} (h : ∀ c ∈ grp, isInvalid c = false) :
    groupResult .dec p grp =
      .emit ((reconstruct p.revDefault grp).take (tail (effLen p grp))) := by
  refine checkedEmit_emit fun ⟨_, hany⟩ => ?_
  obtain ⟨c, hc, hbad⟩ := List.any_eq_true.mp hany
  rw [h c hc] at hbad
  cases hbad

theorem isInvalid_of_isAlpha {c : Byte} (h : isAlpha c = true) : isInvalid c = false := by
  simp [isInvalid, h]

/-- A group that counts whole emits all its bytes. -/
theorem groupResult_of_whole {p : Params} {grp : List Byte} (h : ∀ c ∈ grp, isInvalid c = false)
    (hlen : grp.length ≤ 4) (hwhole : effLen p grp = grp.length) :
    groupResult .dec p grp = .emit (reconstruct p.revDefault grp) := by
  rw [groupResult_of_valid p h, hwhole, ← reconstruct_length p.revDefault hlen, List.take_length]

theorem groupResult_of_alphabet (p : Params) {grp : List Byte} (h : ∀ c ∈ grp, isAlpha c = true)
    (hlen : grp.length ≤ 4) : groupResult .dec p grp = .emit (reconstruct p.revDefault grp) :=
  groupResult_of_whole (fun c hc => isInvalid_of_isAlpha (h c hc)) hlen
    (effLen_of_no_pad p fun c hc => isPad_of_isAlpha (h c hc))

section
variable (p : Params) (b0 b1 b2 : Byte)

theorem groupResult_enc3Out : groupResult .dec p (enc3Out b0 b1 b2) = .emit [b0, b1, b2] := by
  rw [groupResult_of_alphabet p (by simp [enc3Out]) (by simp [enc3Out])]
  simp [enc3Out, reconstruct]

theorem groupResult_two_characters :
    groupResult .dec p [alpha (field1 b0), alpha (field2 b0 b1)] = .emit [b0] := by
  rw [groupResult_of_alphabet p (by simp) (by simp)]
  simp [reconstruct]

theorem groupResult_three_characters :
    groupResult .dec p [alpha (field1 b0), alpha (field2 b0 b1), alpha (field3 b1 b2)] = .emit [b0, b1] := by
  rw [groupResult_of_alphabet p (by simp) (by simp)]
  simp [reconstruct]

end

/-- On full groups `decode` undoes `encode`, whatever the straps and whatever follows. -/
theorem decodeGo_encodeBytes_append (p : Params) {full : List Byte} (h : full.length % 3 = 0)
    (rest : List Byte) : ∀ r out, decodeGo p r out (encodeBytes full ++ rest) =
      decodeGo p (r + (encodeBytes full).length) (out ++ full) rest := by
  induction full using groupsOfThree with
  | nil => simp [encodeBytes]
  | one a => simp at h
  | two a b => simp at h
  | three a b c t ih =>
    intro r out
    have ht : t.length % 3 = 0 := by simp only [List.length_cons] at h; omega
    have hgrp : (encodeBytes (a :: b :: c :: t) ++ rest).take 4 = enc3Out a b c := rfl
    have hdrop : (encodeBytes (a :: b :: c :: t) ++ rest).drop 4 = encodeBytes t ++ rest := rfl
    have hlen : (encodeBytes (a :: b :: c :: t)).length = 4 + (encodeBytes t).length := by
      simp only [encodeBytes, List.length_append]
      rfl
    rw [decodeGo_of_emit (List.ne_nil_of_length_pos (by simp [hlen])) (hgrp ▸ groupResult_enc3Out p a b c),
      hdrop, ih ht, hgrp, hlen, List.append_assoc, ← Nat.add_assoc]
    rfl

theorem decodeChars_full (p : Params) {full : List Byte} (h : full.length % 3 = 0) :
    decodeChars p (encodeBytes full) = .ok full := by
  simpa [decodeChars] using decodeGo_encodeBytes_append p h [] 0 []

/-- With a last group after the full ones the bytes it emits end the result. -/
theorem decodeChars_full_last (p : Params) {full last bs : List Byte} (h : full.length % 3 = 0)
    (hne : last ≠ []) (hlen : last.length ≤ 4) (hlast : groupResult .dec p last = .emit bs) :
    decodeChars p (encodeBytes full ++ last) = .ok (full ++ bs) := by
  rw [decodeChars, decodeGo_encodeBytes_append p h, decodeGo_of_last hne hlen hlast, List.nil_append]

/-! ## The round trips -/

section
variable {p : Params} (a b : Byte)

/-- In TRUNCATE the two characters before the markers count: one byte (R145). -/
theorem groupResult_encodeBytes_one_truncate (hp : p.padMode = .truncate) :
    groupResult .dec p (encodeBytes [a]) = .emit [a] := by
  have heff : effLen p (encodeBytes [a]) = 2 := by
    rw [encodeBytes_one]
    exact effLen_of_pad hp (before := [_, _]) (by simp)
  rw [groupResult_of_valid p (by simp [encodeBytes_one]), heff, encodeBytes_one]
  simp [reconstruct, tail]

theorem groupResult_encodeBytes_two_truncate (hp : p.padMode = .truncate) :
    groupResult .dec p (encodeBytes [a, b]) = .emit [a, b] := by
  have heff : effLen p (encodeBytes [a, b]) = 3 := by
    rw [encodeBytes_two]
    exact effLen_of_pad hp (before := [_, _, _]) (by simp)
  rw [groupResult_of_valid p (by simp [encodeBytes_two]), heff, encodeBytes_two]
  simp [reconstruct, tail]

/-- The Padding Marker is outside the alphabet, so it reads as REV_DEFAULT (R32, R34). -/
@[simp] theorem rev_padMarker (d : Sextet) : rev d padMarker = d :=
  rev_of_not_isAlpha d isAlpha_padMarker

/-- The last field of a 1-byte group has four zero bits: only the next sextet is seen behind it. -/
theorem byte1_field2_zero (d : Sextet) : byte1 (field2 a 0#8) d = d.setWidth 8 >>> 2 := by
  refine BitVec.eq_of_getLsbD_eq fun i hi => ?_
  interval_cases i <;> simp [byte1, field2]

theorem byte2_field3_zero (d : Sextet) : byte2 (field3 b 0#8) d = d.setWidth 8 := by
  refine BitVec.eq_of_getLsbD_eq fun i hi => ?_
  interval_cases i <;> simp [byte2, field3]

/-- In PASSTHROUGH the markers count, as characters of value REV_DEFAULT (R145, R156). -/
theorem groupResult_encodeBytes_one_passthrough (hp : p.padMode = .passthrough) :
    groupResult .dec p (encodeBytes [a]) = .emit [a, p.revDefault.setWidth 8 >>> 2,
      ((p.revDefault.setWidth 8 &&& 0x03#8) <<< 6) ||| p.revDefault.setWidth 8] := by
  rw [groupResult_of_whole (by simp [encodeBytes_one]) (by simp [encodeBytes_one]) (effLen_passthrough hp _),
    encodeBytes_one]
  simp [reconstruct, byte1_field2_zero, byte2]

theorem groupResult_encodeBytes_two_passthrough (hp : p.padMode = .passthrough) :
    groupResult .dec p (encodeBytes [a, b]) = .emit [a, b, p.revDefault.setWidth 8] := by
  rw [groupResult_of_whole (by simp [encodeBytes_two]) (by simp [encodeBytes_two]) (effLen_passthrough hp _),
    encodeBytes_two]
  simp [reconstruct, byte2_field3_zero]

end

/-- Settles O49, by the final group: its markers do not count. -/
theorem roundTripTruncate : Obligations.RoundTripTruncate := by
  intro p bs hp
  obtain ⟨full, hfull, rfl | ⟨a, rfl⟩ | ⟨a, b, rfl⟩⟩ := full_or_final bs
  · exact decodeChars_full p hfull
  · rw [encodeBytes_append hfull]
    exact decodeChars_full_last p hfull (by simp [encodeBytes_one]) (by simp [encodeBytes_one])
      (groupResult_encodeBytes_one_truncate a hp)
  · rw [encodeBytes_append hfull]
    exact decodeChars_full_last p hfull (by simp [encodeBytes_two]) (by simp [encodeBytes_two])
      (groupResult_encodeBytes_two_truncate a b hp)

/-- Settles O50, by the final group: its markers read as REV_DEFAULT and make the extra bytes. -/
theorem roundTripPassthrough : Obligations.RoundTripPassthrough := by
  intro p bs hp
  obtain ⟨full, hfull, rfl | ⟨a, rfl⟩ | ⟨a, b, rfl⟩⟩ := full_or_final bs
  · simpa [hfull] using decodeChars_full p hfull
  · have hmod : (full.length + 1) % 3 = 1 := by omega
    have hlast := decodeChars_full_last p hfull (by simp [encodeBytes_one]) (by simp [encodeBytes_one])
      (groupResult_encodeBytes_one_passthrough a hp)
    rw [encodeBytes_append hfull, hlast]
    simp [hmod]
  · have hmod : (full.length + 2) % 3 = 2 := by omega
    have hlast := decodeChars_full_last p hfull (by simp [encodeBytes_two]) (by simp [encodeBytes_two])
      (groupResult_encodeBytes_two_passthrough a b hp)
    rw [encodeBytes_append hfull, hlast]
    simp [hmod]

/-- Settles O47: `decode` in TRUNCATE recovers the bytes. -/
theorem encodeInjective : Obligations.EncodeInjective := by
  intro b1 b2 h
  have hround := roundTripTruncate { Config.reference with padMode := .truncate }
  exact DecodeResult.ok.inj ((hround b1 rfl).symm.trans (h ▸ hround b2 rfl))

/-! ## Text without its trailing markers -/

theorem stripPads_append_pads {body : List Byte} (h : ∀ c ∈ body, isPad c = false) (n : Nat) :
    stripPads (body ++ List.replicate n padMarker) = body := by
  rw [stripPads, List.reverse_append, List.reverse_replicate, List.dropWhile_append_of_pos (by simp),
    List.dropWhile_eq_self_iff.mpr ?_, List.reverse_reverse]
  intro hlen
  simpa using h _ (List.mem_reverse.mp (List.getElem_mem hlen))

/-- A text is what remains without its trailing markers, and the markers. -/
theorem stripPads_append_replicate (str : List Byte) : str = stripPads str ++
    List.replicate (str.length - (stripPads str).length) padMarker := by
  have hpads : str.reverse.takeWhile isPad =
      List.replicate (str.length - (stripPads str).length) padMarker := by
    refine List.eq_replicate_iff.mpr ⟨?_, fun c hc => (isPad_iff c).mp (List.mem_takeWhile_imp hc)⟩
    have := congrArg List.length (List.takeWhile_append_dropWhile (p := isPad) (l := str.reverse))
    simp only [List.length_append, List.length_reverse] at this
    simp only [stripPads, List.length_reverse]
    omega
  calc str = str.reverse.reverse := (List.reverse_reverse str).symm
    _ = (str.reverse.takeWhile isPad ++ str.reverse.dropWhile isPad).reverse := by
      rw [List.takeWhile_append_dropWhile]
    _ = _ := by rw [List.reverse_append, hpads, List.reverse_replicate, stripPads]

theorem isPad_of_mem_encodeBytes {full : List Byte} (h : full.length % 3 = 0) :
    ∀ c ∈ encodeBytes full, isPad c = false :=
  fun c hc => isPad_of_isAlpha (isAlpha_of_mem_encodeBytes h c hc)

section
variable {full : List Byte} (h : full.length % 3 = 0) (a b : Byte)
include h

theorem stripPads_encodeBytes_full : stripPads (encodeBytes full) = encodeBytes full := by
  simpa using stripPads_append_pads (isPad_of_mem_encodeBytes h) 0

theorem stripPads_encodeBytes_one : stripPads (encodeBytes (full ++ [a])) =
    encodeBytes full ++ [alpha (field1 a), alpha (field2 a 0#8)] := by
  have hbody : ∀ c ∈ encodeBytes full ++ [alpha (field1 a), alpha (field2 a 0#8)], isPad c = false := by
    simpa [or_imp, forall_and] using isPad_of_mem_encodeBytes h
  simpa [encodeBytes_append h, encodeBytes_one, List.replicate] using stripPads_append_pads hbody 2

theorem stripPads_encodeBytes_two : stripPads (encodeBytes (full ++ [a, b])) =
    encodeBytes full ++ [alpha (field1 a), alpha (field2 a b), alpha (field3 b 0#8)] := by
  have hbody : ∀ c ∈ encodeBytes full ++ [alpha (field1 a), alpha (field2 a b), alpha (field3 b 0#8)],
      isPad c = false := by
    simpa [or_imp, forall_and] using isPad_of_mem_encodeBytes h
  simpa [encodeBytes_append h, encodeBytes_two, List.replicate] using stripPads_append_pads hbody 1

end

/-- Settles O51: without its markers the final group is DEC2's or DEC3's. -/
theorem roundTripStripped : Obligations.RoundTripStripped := by
  intro p bs
  obtain ⟨full, hfull, rfl | ⟨a, rfl⟩ | ⟨a, b, rfl⟩⟩ := full_or_final bs
  · rw [stripPads_encodeBytes_full hfull]
    exact decodeChars_full p hfull
  · rw [stripPads_encodeBytes_one hfull]
    exact decodeChars_full_last p hfull (by simp) (by simp) (groupResult_two_characters p a 0#8)
  · rw [stripPads_encodeBytes_two hfull]
    exact decodeChars_full_last p hfull (by simp) (by simp) (groupResult_three_characters p a b 0#8)

/-! ## Alphabet text of full groups -/

/-- Four characters are the encoding of the bytes their sextets make. -/
theorem enc3Out_of_alphabet {c1 c2 c3 c4 : Byte} (h : ∀ c ∈ [c1, c2, c3, c4], isAlpha c = true) :
    ∃ a b c, enc3Out a b c = [c1, c2, c3, c4] := by
  simp only [List.forall_mem_cons] at h
  obtain ⟨h1, h2, h3, h4, -⟩ := h
  refine ⟨byte0 (rev 0#6 c1) (rev 0#6 c2), byte1 (rev 0#6 c2) (rev 0#6 c3),
    byte2 (rev 0#6 c3) (rev 0#6 c4), ?_⟩
  simp [enc3Out, alpha_rev, h1, h2, h3, h4]

theorem exists_encodeBytes_eq {str : List Byte} (hlen : str.length % 4 = 0)
    (h : ∀ c ∈ str, isAlpha c = true) : ∃ full, full.length % 3 = 0 ∧ encodeBytes full = str := by
  induction str, hlen using groupsOfFour with
  | nil => exact ⟨[], rfl, rfl⟩
  | four c1 c2 c3 c4 t ht ih =>
    rw [show c1 :: c2 :: c3 :: c4 :: t = [c1, c2, c3, c4] ++ t from rfl, List.forall_mem_append] at h
    obtain ⟨a, b, c, habc⟩ := enc3Out_of_alphabet h.1
    obtain ⟨full, hfull, hstr⟩ := ih h.2
    refine ⟨a :: b :: c :: full, by simp only [List.length_cons]; omega, ?_⟩
    rw [encodeBytes, habc, hstr]
    rfl

/-- Settles O53: the text is an encoding of full groups, which `decode` undoes whatever the straps. -/
theorem encodeAfterDecode : Obligations.EncodeAfterDecode := by
  intro p str hlen h
  obtain ⟨full, hfull, rfl⟩ := exists_encodeBytes_eq hlen h
  exact ⟨full, decodeChars_full p hfull, rfl⟩

/-! ## WellFormed -/

/-- The zero-bit condition of R157 for one marker: the last byte that the character makes is 0. -/
theorem byte2_eq_zero_iff (s : Sextet) : byte2 s 0#6 = 0#8 ↔ s.extractLsb' 0 2 = 0#2 := by
  revert s; decide

theorem byte1_eq_zero_iff (s : Sextet) : byte1 s 0#6 = 0#8 ↔ s.extractLsb' 0 4 = 0#4 := by
  revert s; decide

theorem byte2_field3_zero_zero (b : Byte) : byte2 (field3 b 0#8) 0#6 = 0#8 := byte2_field3_zero b 0#6

theorem byte1_field2_zero_zero (a : Byte) : byte1 (field2 a 0#8) 0#6 = 0#8 := byte1_field2_zero a 0#6

/-- Two characters, of which the last ends in four zero bits, are a final group of one byte. -/
theorem encodeBytes_one_of_alphabet {c1 c2 : Byte} (h1 : isAlpha c1 = true) (h2 : isAlpha c2 = true)
    (hzero : (rev 0#6 c2).extractLsb' 0 4 = 0#4) :
    encodeBytes [byte0 (rev 0#6 c1) (rev 0#6 c2)] = [c1, c2, padMarker, padMarker] := by
  rw [encodeBytes_one, ← (byte1_eq_zero_iff _).mpr hzero, field1_bytes, field2_bytes, alpha_rev _ h1,
    alpha_rev _ h2]

theorem encodeBytes_two_of_alphabet {c1 c2 c3 : Byte} (h1 : isAlpha c1 = true) (h2 : isAlpha c2 = true)
    (h3 : isAlpha c3 = true) (hzero : (rev 0#6 c3).extractLsb' 0 2 = 0#2) :
    encodeBytes [byte0 (rev 0#6 c1) (rev 0#6 c2), byte1 (rev 0#6 c2) (rev 0#6 c3)] =
      [c1, c2, c3, padMarker] := by
  rw [encodeBytes_two, ← (byte2_eq_zero_iff _).mpr hzero, field1_bytes, field2_bytes, field3_bytes,
    alpha_rev _ h1, alpha_rev _ h2, alpha_rev _ h3]

/-- Alphabet text is an encoding of full groups and the characters left over. -/
theorem full_groups_append_rest {body : List Byte} (h : ∀ c ∈ body, isAlpha c = true) :
    ∃ full rest, full.length % 3 = 0 ∧ body = encodeBytes full ++ rest ∧ rest.length = body.length % 4 ∧
      ∀ c ∈ rest, isAlpha c = true := by
  have hlen : (body.take (4 * (body.length / 4))).length % 4 = 0 := by
    rw [List.length_take]
    omega
  obtain ⟨full, hfull, heq⟩ := exists_encodeBytes_eq hlen fun c hc => h c (List.mem_of_mem_take hc)
  refine ⟨full, body.drop (4 * (body.length / 4)), hfull, ?_, ?_, fun c hc => h c (List.mem_of_mem_drop hc)⟩
  · rw [heq, List.take_append_drop]
  · rw [List.length_drop]
    omega

/-- The zero-bit condition allows no more than two markers, and for each a last character whose bits are
zero. -/
theorem zeroTailBits_cases {pads : Nat} {body : List Byte} (h : zeroTailBits pads body = true) :
    pads = 0 ∨ (∃ c, pads = 1 ∧ body.getLast? = some c ∧ (rev 0#6 c).extractLsb' 0 2 = 0#2) ∨
      ∃ c, pads = 2 ∧ body.getLast? = some c ∧ (rev 0#6 c).extractLsb' 0 4 = 0#4 := by
  unfold zeroTailBits at h
  split at h
  · exact .inl rfl
  · next c hc => exact .inr (.inl ⟨c, rfl, hc, of_decide_eq_true h⟩)
  · next c hc => exact .inr (.inr ⟨c, rfl, hc, of_decide_eq_true h⟩)
  · cases h

/-- Alphabet characters and markers that meet the zero-bit condition are an encoding. -/
theorem exists_encodeBytes_of_zeroTailBits {body : List Byte} {pads : Nat}
    (hbody : ∀ c ∈ body, isAlpha c = true) (hlen : (body.length + pads) % 4 = 0)
    (hzero : zeroTailBits pads body = true) :
    ∃ bs, encodeBytes bs = body ++ List.replicate pads padMarker := by
  obtain ⟨full, rest, hfull, rfl, hrest, halpha⟩ := full_groups_append_rest hbody
  rcases zeroTailBits_cases hzero with rfl | ⟨c, rfl, hlast, hbits⟩ | ⟨c, rfl, hlast, hbits⟩
  · obtain rfl : rest = [] := List.length_eq_zero_iff.mp (by omega)
    exact ⟨full, by simp⟩
  · obtain ⟨c1, c2, c3, rfl⟩ := List.length_eq_three.mp (show rest.length = 3 by omega)
    obtain rfl : c3 = c := by simpa using hlast
    simp only [List.forall_mem_cons] at halpha
    obtain ⟨h1, h2, h3, -⟩ := halpha
    obtain ⟨final, hfinal⟩ : ∃ bs, encodeBytes bs = [c1, c2, c3, padMarker] :=
      ⟨_, encodeBytes_two_of_alphabet h1 h2 h3 hbits⟩
    exact ⟨full ++ final, by simp [encodeBytes_append hfull, hfinal]⟩
  · obtain ⟨c1, c2, rfl⟩ := List.length_eq_two.mp (show rest.length = 2 by omega)
    obtain rfl : c2 = c := by simpa using hlast
    simp only [List.forall_mem_cons] at halpha
    obtain ⟨h1, h2, -⟩ := halpha
    obtain ⟨final, hfinal⟩ : ∃ bs, encodeBytes bs = [c1, c2, padMarker, padMarker] :=
      ⟨_, encodeBytes_one_of_alphabet h1 h2 hbits⟩
    exact ⟨full ++ final, by simp [encodeBytes_append hfull, hfinal, List.replicate]⟩

theorem wellFormedText_iff (str : List Byte) : wellFormedText str = true ↔
    str.length % 4 = 0 ∧ (∀ c ∈ stripPads str, isAlpha c = true) ∧
      zeroTailBits (str.length - (stripPads str).length) (stripPads str) = true := by
  simp [wellFormedText, and_assoc]

theorem encodeBytes_length_mod_four (bs : List Byte) : (encodeBytes bs).length % 4 = 0 := by
  rw [encodeBytes_length, encLen]
  omega

/-- Every encoding is well formed, by its final group. -/
theorem wellFormedText_encodeBytes (bs : List Byte) : wellFormedText (encodeBytes bs) = true := by
  refine (wellFormedText_iff _).mpr ⟨encodeBytes_length_mod_four bs, ?_⟩
  obtain ⟨full, hfull, rfl | ⟨a, rfl⟩ | ⟨a, b, rfl⟩⟩ := full_or_final bs
  · rw [stripPads_encodeBytes_full hfull, Nat.sub_self]
    exact ⟨isAlpha_of_mem_encodeBytes hfull, rfl⟩
  · rw [stripPads_encodeBytes_one hfull, encodeBytes_append hfull, encodeBytes_one]
    refine ⟨by simpa [or_imp, forall_and] using isAlpha_of_mem_encodeBytes hfull, ?_⟩
    simp [zeroTailBits, ← byte1_eq_zero_iff, byte1_field2_zero_zero]
  · rw [stripPads_encodeBytes_two hfull, encodeBytes_append hfull, encodeBytes_two]
    refine ⟨by simpa [or_imp, forall_and] using isAlpha_of_mem_encodeBytes hfull, ?_⟩
    simp [zeroTailBits, ← byte2_eq_zero_iff, byte2_field3_zero_zero]

/-- Settles O52: `exists_encodeBytes_of_zeroTailBits` one way, `wellFormedText_encodeBytes` the other. -/
theorem wellFormedIffEncoded : Obligations.WellFormedIffEncoded := by
  intro str
  refine ⟨fun h => ?encoded, ?wellFormed⟩
  case encoded =>
    obtain ⟨hlen, halpha, hzero⟩ := (wellFormedText_iff str).mp h
    have hstr := stripPads_append_replicate str
    have hsum := congrArg List.length hstr
    rw [List.length_append, List.length_replicate] at hsum
    obtain ⟨bs, hbs⟩ := exists_encodeBytes_of_zeroTailBits halpha (by rw [← hsum]; exact hlen) hzero
    exact ⟨bs, hbs.trans hstr.symm⟩
  case wellFormed =>
    rintro ⟨bs, rfl⟩
    exact wellFormedText_encodeBytes bs

end Sys2Proof.Proofs
end

section
/-! Proofs of the obligations about the result of a run (42_sequencer_and_host.md R183, R184, R186). The
invariant of a run is `Running`: what has been written, continued by the codec on the rest of the input, is the
result on the whole input. A block step keeps it or ends the run with that result; a host command leaves the
block. -/

namespace Sys2Proof.Proofs

open Sys2Proof.Machine

/-! ## The codec from any group boundary on -/

/-- What a run of mode `m` computes from index `r` on, with `out` written and `rest` to be read: `encode`, or
`go` of R150. -/
def codecFrom (m : Mode) (p : Params) (r : Nat) (out rest : List Byte) : DecodeResult :=
  match m with
  | .enc => .ok (out ++ encodeBytes rest)
  | .dec => decodeGo p r out rest

theorem encodeBytes_take_drop (l : List Byte) :
    encodeBytes l = encodeBytes (l.take 3) ++ encodeBytes (l.drop 3) := by
  by_cases h : 3 ≤ l.length
  · rw [← encodeBytes_append (by rw [List.length_take, Nat.min_eq_left h]), List.take_append_drop]
  · rw [List.take_of_length_le (by omega), List.drop_of_length_le (by omega)]
    exact (List.append_nil _).symm

section
variable {m : Mode} {p : Params} {r : Nat} {out rest bs : List Byte}

@[simp] theorem codecFrom_nil (m : Mode) (p : Params) (r : Nat) (out : List Byte) :
    codecFrom m p r out [] = .ok out := by
  cases m with
  | enc => exact congrArg DecodeResult.ok (List.append_nil out)
  | dec => exact decodeGo_nil p r out

theorem codecFrom_of_emit (hne : rest ≠ [])
    (h : groupResult m p (rest.take (groupWidth m)) = .emit bs) :
    codecFrom m p r out rest =
      codecFrom m p (r + (rest.take (groupWidth m)).length) (out ++ bs) (rest.drop (groupWidth m)) := by
  cases m with
  | enc =>
    obtain rfl := GroupResult.emit.inj h
    simp only [codecFrom, groupWidth, List.append_assoc]
    rw [encodeBytes_take_drop rest]
  | dec => exact decodeGo_of_emit hne h

theorem codecFrom_of_invalid {pos : Nat} (hne : rest ≠ [])
    (h : groupResult m p (rest.take (groupWidth m)) = .invalid pos) :
    codecFrom m p r out rest = .err (r + pos) out := by
  cases m with
  | enc => cases h
  | dec => exact decodeGo_of_invalid hne h

/-- An error is of DEC mode, at an index of the rest. -/
theorem codecFrom_err {i : Nat} {ys : List Byte} : ∀ r out, codecFrom m p r out rest = .err i ys →
    m = .dec ∧ r ≤ i ∧ i < r + rest.length := by
  have hw : 0 < groupWidth m := by cases m <;> decide
  induction rest using groupInduction hw with
  | nil =>
    intro r out h
    rw [codecFrom_nil] at h
    cases h
  | group rest hne ih =>
    intro r out h
    cases hgrp : groupResult m p (rest.take (groupWidth m)) with
    | emit bs =>
      rw [codecFrom_of_emit hne hgrp] at h
      obtain ⟨hm, hle, hlt⟩ := ih _ _ h
      simp only [List.length_take, List.length_drop] at hle hlt
      exact ⟨hm, by omega, by omega⟩
    | invalid pos =>
      rw [codecFrom_of_invalid hne hgrp] at h
      cases h
      obtain ⟨hm, -, hpos⟩ := groupResult_invalid hgrp
      rw [List.length_take] at hpos
      exact ⟨hm, by omega, by omega⟩

end

/-- The result of a run on `xs` that begins in `s` (R184). -/
def outcome (s : State) (xs : List Byte) : DecodeResult := codecFrom s.mode s.params 0 [] xs

/-- What a run never changes (R184): the constants, MODE, ILEN, IBUF, and OBUF at and above OLEN. -/
def RunKeeps (s t : State) : Prop :=
  t.params = s.params ∧ t.mode = s.mode ∧ t.ilen = s.ilen ∧ t.ibuf = s.ibuf ∧
  ∀ a, t.wp ≤ a → t.obuf.read a = s.obuf.read a

/-- The registers and the valid output in which a run on `n` cells ends, by its result (R184). -/
def EndsWith (n : Nat) (t : State) : DecodeResult → Prop
  | .ok ys => t.status = .done ∧ t.errIdx = 0 ∧ t.rp = n ∧ t.OutputIs ys
  | .err i ys => t.status = .error ∧ t.errIdx = i ∧ t.rp = 4 * (i / 4) ∧ t.OutputIs ys

theorem runResult_iff (s t : State) (xs : List Byte) :
    s.RunResult xs t ↔ RunKeeps s t ∧ EndsWith xs.length t (outcome s xs) := by
  cases hm : s.mode with
  | enc => simp [State.RunResult, RunKeeps, outcome, codecFrom, hm, EndsWith, and_assoc]
  | dec =>
    have hout : outcome s xs = decodeChars s.params xs := by rw [outcome, hm]; rfl
    cases hdec : decodeChars s.params xs <;>
      simp [State.RunResult, RunKeeps, hout, hm, hdec, EndsWith, and_assoc]

/-! ## The invariant of a run -/

/-- `u` is a state of the run on `xs` that began in `s`. -/
structure Running (s : State) (xs : List Byte) (u : State) : Prop where
  progress : InProgress u
  keeps : RunKeeps s u
  errIdx : u.errIdx = 0
  output : ∃ out, u.OutputIs out ∧ codecFrom s.mode s.params u.rp out (xs.drop u.rp) = outcome s xs

/-- The steps a run on `n` cells still takes from RP = `r` on, by its result (R183). -/
def stepsFrom (m : Mode) (n r : Nat) : DecodeResult → Nat
  | .ok _ => (n - r + (groupWidth m - 1)) / groupWidth m + 1
  | .err i _ => (i - r) / 4 + 1

theorem runLength_eq (s : State) (xs : List Byte) :
    s.runLength xs = stepsFrom s.mode xs.length 0 (outcome s xs) := by
  cases hm : s.mode with
  | enc => simp [State.runLength, outcome, codecFrom, hm, stepsFrom, groupWidth]
  | dec =>
    have hout : outcome s xs = decodeChars s.params xs := by rw [outcome, hm]; rfl
    cases hdec : decodeChars s.params xs <;>
      simp [State.runLength, hout, hm, hdec, stepsFrom, groupWidth]

theorem running_of_launched {s : State} (h : s.Launched) (xs : List Byte) : Running s xs s where
  progress := by
    obtain ⟨hb, hrp, hwp, -, hp⟩ := h
    exact ⟨hb, hp, by omega, .inl (by simp [hrp]), by omega⟩
  keeps := ⟨rfl, rfl, rfl, rfl, fun _ _ => rfl⟩
  errIdx := h.2.2.2.1
  output := by
    obtain ⟨-, hrp, hwp, -⟩ := h
    exact ⟨[], ⟨hwp, fun i v hi => by simp at hi⟩, by rw [hrp]; rfl⟩

section
variable {s u x t : State} {xs : List Byte}

/-- The invariant speaks of the block alone. -/
theorem Running.sameBlock (h : Running s xs u) (hsame : u.SameBlock t) : Running s xs t := by
  obtain ⟨h1, h2, h3, h4, h5, h6, h7, h8, h9⟩ := hsame
  cases u
  cases t
  simp only at h1 h2 h3 h4 h5 h6 h7 h8 h9
  subst h1 h2 h3 h4 h5 h6 h7 h8 h9
  obtain ⟨⟨hb, hp, hrp, halign, hwp⟩, hkeeps, herr, hout⟩ := h
  exact ⟨⟨hb, hp, hrp, halign, hwp⟩, hkeeps, herr, hout⟩

theorem runResult_sameBlock (h : s.RunResult xs x) (hsame : x.SameBlock t) : s.RunResult xs t := by
  obtain ⟨h1, h2, h3, h4, h5, h6, h7, h8, h9⟩ := hsame
  unfold State.RunResult State.OutputIs at *
  rw [h1, h2, h3, h4, h5, h6, h7, h8, h9]
  exact h

theorem Running.mode_eq (h : Running s xs u) : u.mode = s.mode := h.keeps.2.1

theorem Running.ilen_eq (hin : s.InputIs xs) (h : Running s xs u) : u.ilen = xs.length :=
  h.keeps.2.2.1.trans hin.1

/-- The group at RP is the next one of the input (R64, R184). -/
theorem Running.groupAt_eq (hin : s.InputIs xs) (h : Running s xs u) :
    u.groupAt u.groupCount = (xs.drop u.rp).take (groupWidth u.mode) := by
  have hlen : ((xs.drop u.rp).take (groupWidth u.mode)).length = u.groupCount := by
    rw [List.length_take, List.length_drop, ← h.ilen_eq hin, State.groupCount]
  obtain ⟨-, -, -, hibuf, -⟩ := h.keeps
  have hcells : ∀ i v, ((xs.drop u.rp).take (groupWidth u.mode))[i]? = some v →
      u.ibuf.read (u.rp + i) = some v := by
    intro i v hi
    rw [List.getElem?_take, List.getElem?_drop] at hi
    split at hi
    · rw [hibuf]
      simpa using hin.2 (u.rp + i) v hi
    · cases hi
  rw [State.groupAt, ← hlen, fetchCells_written hcells]

theorem Running.rest_ne_nil (hin : s.InputIs xs) (h : Running s xs u) (hlt : u.rp < u.ilen) :
    xs.drop u.rp ≠ [] := by
  rw [h.ilen_eq hin] at hlt
  exact List.ne_nil_of_length_pos (by rw [List.length_drop]; omega)

/-- The codec goes on behind a group that was emitted. -/
theorem Running.output_advance (hin : s.InputIs xs) (h : Running s xs u) (hlt : u.rp < u.ilen)
    {out bs : List Byte} (hrest : codecFrom s.mode s.params u.rp out (xs.drop u.rp) = outcome s xs)
    (hbs : groupResult u.mode u.params (u.groupAt u.groupCount) = .emit bs) :
    codecFrom s.mode s.params (u.rp + u.groupCount) (out ++ bs) (xs.drop (u.rp + u.groupCount)) =
      outcome s xs := by
  have hne := h.rest_ne_nil hin hlt
  have hcount := groupAt_length u u.groupCount
  rw [h.groupAt_eq hin, h.mode_eq] at hbs hcount
  rw [h.keeps.1] at hbs
  have hdrop : (xs.drop u.rp).drop (groupWidth s.mode) = xs.drop (u.rp + u.groupCount) := by
    rw [← List.drop_drop, ← hcount, List.length_take]
    exact List.drop_eq_drop_iff.mpr (by omega)
  rw [codecFrom_of_emit hne hbs, hcount, hdrop] at hrest
  exact hrest

/-- A completed group keeps the invariant, and takes one of the steps. -/
theorem Running.advance (hin : s.InputIs xs) (h : Running s xs u) (hlt : u.rp < u.ilen) {bs : List Byte}
    (hbs : groupResult u.mode u.params (u.groupAt u.groupCount) = .emit bs) :
    Running s xs (u.advance u.groupCount bs) := by
  obtain ⟨out, ⟨hwp, hholds⟩, hrest⟩ := h.output
  obtain ⟨hparams, hmode, hilen, hibuf, hframe⟩ := h.keeps
  refine ⟨h.progress.advance hlt hbs, ⟨hparams, hmode, hilen, hibuf, fun a ha => ?frame⟩, h.errIdx,
    out ++ bs, ⟨?length, ?cells⟩, h.output_advance hin hlt hrest hbs⟩
  case frame =>
    have ha' : u.wp + bs.length ≤ a := ha
    exact (Memory.read_writeCells_outside u.obuf (.inr ha')).trans (hframe a (by omega))
  case length => simp [hwp]
  case cells => simpa [hwp] using hholds.append (ys := bs)

/-- An error of the run lies behind every group that was emitted. -/
theorem Running.err_bounds (hin : s.InputIs xs) (h : Running s xs u) {i : Nat} {ys : List Byte}
    (herr : outcome s xs = .err i ys) : s.mode = .dec ∧ u.rp ≤ i ∧ i < xs.length := by
  obtain ⟨out, -, hrest⟩ := h.output
  obtain ⟨hdec, hle, hlt⟩ := codecFrom_err _ _ (hrest.trans herr)
  have hrp := h.progress.rp_le
  rw [h.ilen_eq hin] at hrp
  rw [List.length_drop] at hlt
  exact ⟨hdec, hle, by omega⟩

/-- Each completed group is one step of the run (R183). -/
theorem Running.stepsFrom_advance (hin : s.InputIs xs) (h : Running s xs u) (hlt : u.rp < u.ilen)
    (hnext : Running s xs (u.advance u.groupCount bs)) :
    stepsFrom s.mode xs.length u.rp (outcome s xs) =
      stepsFrom s.mode xs.length (u.rp + u.groupCount) (outcome s xs) + 1 := by
  have hcount : u.groupCount = min (groupWidth s.mode) (xs.length - u.rp) := by
    rw [State.groupCount, h.mode_eq, h.ilen_eq hin]
  rw [h.ilen_eq hin] at hlt
  cases hout : outcome s xs with
  | ok ys =>
    rw [hcount]
    cases s.mode <;> simp only [stepsFrom, groupWidth] <;> omega
  | err i ys =>
    obtain ⟨hdec, hle, hilt⟩ := hnext.err_bounds hin hout
    have hle' : u.rp + u.groupCount ≤ i := hle
    rw [hcount, hdec] at hle' ⊢
    simp only [stepsFrom, groupWidth] at hle' ⊢
    omega

/-- The halting step is the last, and what has been written is the result (R182, R183). -/
theorem Running.halt (hin : s.InputIs xs) (h : Running s xs u) (hend : u.rp = u.ilen) :
    s.RunResult xs u.halt ∧ stepsFrom s.mode xs.length u.rp (outcome s xs) = 1 := by
  obtain ⟨out, hholds, hrest⟩ := h.output
  rw [h.ilen_eq hin] at hend
  rw [hend, List.drop_length, codecFrom_nil] at hrest
  rw [runResult_iff, ← hrest]
  refine ⟨⟨h.keeps, rfl, h.errIdx, hend, hholds⟩, ?_⟩
  rw [hend]
  cases s.mode <;> simp [stepsFrom, groupWidth]

/-- The exception ends the run with the error of the codec, in the group at RP (R204). -/
theorem Running.raise (hin : s.InputIs xs) (h : Running s xs u) (hlt : u.rp < u.ilen) {pos : Nat}
    (hraise : groupResult u.mode u.params (u.groupAt u.groupCount) = .invalid pos) :
    s.RunResult xs (u.raiseInvalidCharacter (u.rp + pos)) ∧
      stepsFrom s.mode xs.length u.rp (outcome s xs) = 1 := by
  obtain ⟨out, hholds, hrest⟩ := h.output
  have haligned := h.progress.aligned.resolve_right hlt.ne
  obtain ⟨hdec, -, hpos⟩ := groupResult_invalid hraise
  rw [groupAt_length] at hpos
  have hfour := groupCount_le_four u
  rw [hdec, groupWidth] at haligned
  rw [h.groupAt_eq hin, h.mode_eq, h.keeps.1] at hraise
  rw [codecFrom_of_invalid (h.rest_ne_nil hin hlt) hraise] at hrest
  rw [runResult_iff, ← hrest]
  refine ⟨⟨h.keeps, rfl, rfl, ?_, hholds⟩, ?_⟩
  · show u.rp = 4 * ((u.rp + pos) / 4)
    omega
  · simp only [stepsFrom]
    omega

/-- A block step of a run keeps the invariant and takes one of the steps left, or it is the last step and
leaves the result (R183, R184). -/
theorem Running.blockEffect (hin : s.InputIs xs) (h : Running s xs u) (he : BlockEffect u x) :
    (Running s xs x ∧ stepsFrom s.mode xs.length u.rp (outcome s xs) =
      stepsFrom s.mode xs.length x.rp (outcome s xs) + 1) ∨
    (x.status ≠ .busy ∧ s.RunResult xs x ∧ stepsFrom s.mode xs.length u.rp (outcome s xs) = 1) := by
  cases he with
  | halt _ hend => exact .inr ⟨by simp, h.halt hin hend⟩
  | emit bs _ hlt _ hbs =>
    have hnext := h.advance hin hlt hbs
    exact .inl ⟨hnext, h.stepsFrom_advance hin hlt hnext⟩
  | raise pos _ hlt _ hraise => exact .inr ⟨by simp, h.raise hin hlt hraise⟩

/-- Any step of a run but the reset event keeps the invariant, or is the last and leaves the result (R186). -/
theorem Running.of_step (hin : s.InputIs xs) (h : Running s xs u) (hreset : HostMove.reset ∉ u.hostMoves)
    (hstep : step u = .next t) : Running s xs t ∨ t.status ≠ .busy ∧ s.RunResult xs t := by
  obtain ⟨x, heffect, hsame, -⟩ := step_effect hstep
  have hu (l : List HostMove) : Running s xs (u.withMoves l) := h.sameBlock (sameBlock_refl u)
  cases heffect with
  | keep => exact .inl (h.sameBlock hsame)
  | command _ _ _ heffect =>
    obtain rfl := heffect.of_busy h.progress.busy
    exact .inl ((hu _).sameBlock hsame)
  | block heffect =>
    rcases (hu _).blockEffect hin heffect with ⟨hx, -⟩ | ⟨hb, hres, -⟩
    · exact .inl (hx.sameBlock hsame)
    · have hstatus : t.status = x.status := hsame.2.2.2.1
      exact .inr ⟨hstatus ▸ hb, runResult_sameBlock hres hsame⟩
  | reset hm => exact absurd (hm ▸ List.mem_cons_self) hreset

end

/-! ## The host's list -/

/-- A step puts no move into the list but a wait, between two polls, and reads of OBUF below OLEN. -/
theorem mem_movesAfter {s : State} {mv : HostMove} (h : mv ∈ movesAfter s) : mv ∈ s.hostMoves ∨
    mv = .wait ∨ ∃ i, i < s.wp ∧ mv = .issue { op := 0b10#2, sel := 1#1, num := i, val := 0 } := by
  unfold movesAfter at h
  split at h
  · next hm => exact .inl (hm ▸ h)
  · next hm => exact .inl (hm ▸ List.mem_cons_of_mem _ h)
  · next hm => exact .inl (hm ▸ List.mem_cons_of_mem _ h)
  · next hm => exact .inl (hm ▸ List.mem_cons_of_mem _ h)
  · next hm =>
    split at h
    · exact (List.mem_cons.mp h).elim (fun h => .inr (.inl h)) fun h => .inl (hm ▸ h)
    · exact .inl (hm ▸ List.mem_cons_of_mem _ h)
  · next hm =>
    rcases List.mem_append.mp h with hread | hrest
    · rw [readCells_eq_map] at hread
      obtain ⟨i, hi, rfl⟩ := List.mem_map.mp hread
      exact .inr (.inr ⟨i, List.mem_range.mp hi, by rw [Nat.zero_add]⟩)
    · exact .inl (hm ▸ List.mem_cons_of_mem _ hrest)

theorem reset_not_mem_of_step {s t : State} (h : step s = .next t) (hs : HostMove.reset ∉ s.hostMoves) :
    HostMove.reset ∉ t.hostMoves := by
  obtain ⟨_, -, -, -, hmoves⟩ := step_effect h
  rw [hmoves]
  intro hmem
  rcases mem_movesAfter hmem with hin | hwait | ⟨i, -, hread⟩
  · exact hs hin
  · cases hwait
  · cases hread

/-! ## Runs -/

/-- A run of `n + 1` steps that answers a state begins with a step that does. -/
theorem run_succ_next {n : Nat} {s t : State} (h : Sys2Proof.core.run (n + 1) s = .next t) :
    ∃ u, step s = .next u ∧ Sys2Proof.core.run n u = .next t := by
  cases hstep : step s with
  | next u => exact ⟨u, rfl, (run_succ hstep n).symm.trans h⟩
  | fault r =>
    simp only [Host.Core.run] at h
    rw [show Sys2Proof.core.step s = step s from rfl, hstep] at h
    cases h
  | refused r =>
    simp only [Host.Core.run] at h
    rw [show Sys2Proof.core.step s = step s from rfl, hstep] at h
    cases h

/-- The first state of a run that is not BUSY holds the result, whatever the host does but the reset event. -/
theorem Running.result {s : State} {xs : List Byte} (hin : s.InputIs xs) {t : State} :
    ∀ n u, Running s xs u → HostMove.reset ∉ u.hostMoves → Sys2Proof.core.run n u = .next t →
      (∀ k v, k < n → Sys2Proof.core.run k u = .next v → v.status = .busy) → t.status ≠ .busy →
      s.RunResult xs t := by
  intro n
  induction n with
  | zero =>
    intro u hu _ hrun _ ht
    obtain rfl := Host.Outcome.next.inj hrun
    exact absurd hu.progress.busy ht
  | succ n ih =>
    intro u hu hreset hrun hbusy ht
    obtain ⟨v, hstep, hrest⟩ := run_succ_next hrun
    rcases hu.of_step hin hreset hstep with hv | ⟨hv, hres⟩
    · refine ih v hv (reset_not_mem_of_step hstep hreset) hrest (fun k w hk hw => ?_) ht
      exact hbusy (k + 1) w (by omega) ((run_succ hstep k).trans hw)
    · cases n with
      | zero =>
        obtain rfl := Host.Outcome.next.inj hrest
        exact hres
      | succ n => exact absurd (hbusy 1 v (by omega) (run_succ hstep 0)) hv

/-- Settles O55: a launched state meets `Running`, and `Running.result` holds for every list of moves. -/
theorem runResultUnderInterleaving : Obligations.RunResultUnderInterleaving := by
  intro s t xs n hlaunched hin hreset hrun hbusy ht
  exact (running_of_launched hlaunched xs).result hin n s hreset hrun hbusy ht

/-- With no move of the host a run takes exactly the steps left, BUSY until the last. -/
theorem Running.exact_steps {s : State} {xs : List Byte} (hin : s.InputIs xs) : ∀ n u, Running s xs u →
    u.hostMoves = [] → stepsFrom s.mode xs.length u.rp (outcome s xs) = n →
    (∀ k, k < n → ∃ v, Sys2Proof.core.run k u = .next v ∧ v.status = .busy) ∧
    ∃ t, Sys2Proof.core.run n u = .next t ∧ s.RunResult xs t := by
  intro n
  induction n with
  | zero =>
    intro u hu _ hsteps
    cases hout : outcome s xs <;> rw [hout] at hsteps <;> cases hsteps
  | succ n ih =>
    intro u hu hm hsteps
    obtain ⟨x, d, heffect, hrun⟩ := hu.progress.completes
    have hstep : step u = .next (x.withDraws d) := (step_block hm hu.progress.busy).trans hrun
    have hbusy : ∃ v, Sys2Proof.core.run 0 u = .next v ∧ v.status = .busy := ⟨u, rfl, hu.progress.busy⟩
    rcases hu.blockEffect hin heffect with ⟨hx, hleft⟩ | ⟨-, hres, hlast⟩
    · obtain ⟨hk, t, ht, hres⟩ := ih (x.withDraws d) (hx.sameBlock (sameBlock_refl x))
        (heffect.hostMoves.trans hm) (Nat.succ.inj (hleft.symm.trans hsteps))
      refine ⟨fun k hlt => ?_, t, (run_succ hstep n).trans ht, hres⟩
      cases k with
      | zero => exact hbusy
      | succ k =>
        rw [run_succ hstep]
        exact hk k (by omega)
    · obtain rfl : n = 0 := by omega
      refine ⟨fun k hlt => ?_, _, run_succ hstep 0, runResult_sameBlock hres (sameBlock_refl x)⟩
      obtain rfl : k = 0 := by omega
      exact hbusy

/-- Settles O54: the steps left after the launch are the run's length. -/
theorem runComputesCodec : Obligations.RunComputesCodec := by
  intro s xs hlaunched hm hin
  have hsteps : stepsFrom s.mode xs.length s.rp (outcome s xs) = s.runLength xs := by
    rw [runLength_eq, hlaunched.2.1]
  exact (running_of_launched hlaunched xs).exact_steps hin _ s hm hsteps

/-! ## What the result depends on -/

section
variable {p p' : Params} (hpad : p'.padMode = p.padMode) (hpolicy : p'.invalidPolicy = p.invalidPolicy)
  (hrev : p'.revDefault = p.revDefault)
include hpad hpolicy hrev

/-- Of the constants a group sees the straps alone. -/
theorem groupResult_congr (m : Mode) (grp : List Byte) : groupResult m p' grp = groupResult m p grp := by
  cases m with
  | enc => rfl
  | dec => simp only [groupResult, checkedEmit, strictOffender, effLen, hpad, hpolicy, hrev]

theorem codecFrom_congr (m : Mode) (rest : List Byte) : ∀ r out,
    codecFrom m p' r out rest = codecFrom m p r out rest := by
  have hw : 0 < groupWidth m := by cases m <;> decide
  induction rest using groupInduction hw with
  | nil => exact fun r out => (codecFrom_nil m p' r out).trans (codecFrom_nil m p r out).symm
  | group rest hne ih =>
    intro r out
    have hgrp := groupResult_congr hpad hpolicy hrev m (rest.take (groupWidth m))
    cases h : groupResult m p (rest.take (groupWidth m)) with
    | emit bs =>
      rw [codecFrom_of_emit hne h, codecFrom_of_emit hne (hgrp.trans h)]
      exact ih _ _
    | invalid pos => rw [codecFrom_of_invalid hne h, codecFrom_of_invalid hne (hgrp.trans h)]

end

theorem outputIs_read_eq {t t' : State} {ys : List Byte} (h : t.OutputIs ys) (h' : t'.OutputIs ys) :
    ∀ a, a < t.wp → t'.obuf.read a = t.obuf.read a := by
  intro a ha
  rw [h.1] at ha
  have hread := h.2 a ys[a] (List.getElem?_eq_getElem ha)
  have hread' := h'.2 a ys[a] (List.getElem?_eq_getElem ha)
  rw [Nat.zero_add] at hread hread'
  rw [hread, hread']

/-- Two runs with one result end alike. -/
theorem endsWith_unique {n : Nat} {t t' : State} {res : DecodeResult} (h : EndsWith n t res)
    (h' : EndsWith n t' res) : t'.status = t.status ∧ t'.wp = t.wp ∧ t'.errIdx = t.errIdx ∧ t'.rp = t.rp ∧
      ∀ a, a < t.wp → t'.obuf.read a = t.obuf.read a := by
  cases res with
  | ok ys =>
    obtain ⟨hst, herr, hrp, hout⟩ := h
    obtain ⟨hst', herr', hrp', hout'⟩ := h'
    exact ⟨hst'.trans hst.symm, hout'.1.trans hout.1.symm, herr'.trans herr.symm, hrp'.trans hrp.symm,
      outputIs_read_eq hout hout'⟩
  | err i ys =>
    obtain ⟨hst, herr, hrp, hout⟩ := h
    obtain ⟨hst', herr', hrp', hout'⟩ := h'
    exact ⟨hst'.trans hst.symm, hout'.1.trans hout.1.symm, herr'.trans herr.symm, hrp'.trans hrp.symm,
      outputIs_read_eq hout hout'⟩

/-- Settles O56: both runs end with the result of the codec, which sees MODE, the input and the straps. -/
theorem runDependsOnInputOnly : Obligations.RunDependsOnInputOnly := by
  intro s s' t t' xs n n' hl hl' hin hin' hmode hpad hpolicy hrev hm hm' hrun hrun' hbusy hbusy' ht ht'
  have hend := ((runResult_iff s t xs).mp
    ((running_of_launched hl xs).result hin n s hm hrun hbusy ht)).2
  have hend' := ((runResult_iff s' t' xs).mp
    ((running_of_launched hl' xs).result hin' n' s' hm' hrun' hbusy' ht')).2
  have hout : outcome s' xs = outcome s xs := by
    rw [outcome, hmode]
    exact codecFrom_congr hpad hpolicy hrev s.mode xs 0 []
  rw [hout] at hend'
  exact endsWith_unique hend hend'

end Sys2Proof.Proofs
end

section
/-! Proof of the obligation that every run ends (42_sequencer_and_host.md R183; 70_reset_and_hazards.md R245).
Each host move costs its own steps, and each step of the block moves RP forward or ends the run. -/

namespace Sys2Proof.Proofs

open Sys2Proof.Machine

/-- Within `b` steps the machine is in a state that is not BUSY. -/
def EndsWithin (s : State) (b : Nat) : Prop :=
  ∃ n t, n ≤ b ∧ Sys2Proof.core.run n s = .next t ∧ t.status ≠ .busy

theorem endsWithin_of_ended {s : State} (h : s.status ≠ .busy) (b : Nat) : EndsWithin s b :=
  ⟨0, s, Nat.zero_le b, rfl, h⟩

theorem endsWithin_succ {s t : State} {b : Nat} (hstep : step s = .next t) (h : EndsWithin t b) :
    EndsWithin s (b + 1) := by
  obtain ⟨n, u, hn, hrun, hu⟩ := h
  exact ⟨n + 1, u, by omega, (run_succ hstep n).trans hrun, hu⟩

theorem EndsWithin.mono {s : State} {a b : Nat} (h : EndsWithin s a) (hab : a ≤ b) : EndsWithin s b := by
  obtain ⟨n, t, hn, hrun⟩ := h
  exact ⟨n, t, hn.trans hab, hrun⟩

/-- The steps the host's moves take of their own, at most. -/
def movesCost (ocap : Nat) (l : List HostMove) : Nat := (l.map (HostMove.cost ocap)).sum

@[simp] theorem movesCost_cons (ocap : Nat) (mv : HostMove) (l : List HostMove) :
    movesCost ocap (mv :: l) = mv.cost ocap + movesCost ocap l := by
  simp [movesCost]

/-- The reads of `n` cells are `n` commands. -/
theorem movesCost_readCells_append (ocap a n : Nat) (l : List HostMove) :
    movesCost ocap (readCells a n ++ l) = n + movesCost ocap l := by
  have hread : movesCost ocap (readCells a n ++ l) = movesCost ocap (readCells a n) + movesCost ocap l := by
    simp [movesCost]
  have hcost : movesCost ocap (readCells a n) = n := by
    rw [readCells_eq_map, movesCost, List.map_map]
    simp [Function.comp_def, HostMove.cost]
  rw [hread, hcost]

/-- A run in progress whose host never resets and issues only commands the block decodes; where it polls,
`c`, the steps allowed for each step of the block, is at least 2 (entry 18). -/
structure Served (c : Nat) (s : State) : Prop where
  inv : s.Inv
  busy : s.status = .busy
  noReset : HostMove.reset ∉ s.hostMoves
  decodable : ∀ r, HostMove.issue r ∈ s.hostMoves → ∃ i, decode (.hc r) = .ok i ∧ i.wf s.params.lenW = true
  polls : HostMove.pollStatus ∈ s.hostMoves → 2 ≤ c

section
variable {c : Nat} {s t : State}

/-- Any step of the run that leaves it in progress leaves it served: the reads it may add are of cells of
OBUF, whose indices have LEN_W bits. -/
theorem Served.of_step (h : Served c s) (hstep : step s = .next t) (hb : t.status = .busy) : Served c t := by
  obtain ⟨x, heffect, hsame, -, hmoves⟩ := step_effect hstep
  have hparams : t.params = s.params := stepKeepsParams s t hstep
  refine ⟨stepKeepsInvariant s t h.inv hstep, hb, reset_not_mem_of_step hstep h.noReset, fun r hr => ?_,
    fun hpoll => ?_⟩
  · rw [hmoves] at hr
    rw [hparams]
    rcases mem_movesAfter hr with hin | hwait | ⟨i, hi, hread⟩
    · exact h.decodable r hin
    · cases hwait
    · cases hread
      have hwp := h.inv.pointers.2
      have hocap := h.inv.params.2.2
      exact ⟨.rbuf .obuf i, rfl, decide_eq_true (by omega)⟩
  · rw [hmoves] at hpoll
    rcases mem_movesAfter hpoll with hin | hwait | ⟨i, -, hread⟩
    · exact h.polls hin
    · cases hwait
    · cases hread

/-- The block's turn: the step ends the run or moves RP forward (R183). -/
theorem Served.block_turn (h : Served c s) {l : List HostMove}
    (hm : (s.hostMoves = [] ∧ l = []) ∨ s.hostMoves = .wait :: l) :
    ∃ t, step s = .next t ∧ t.params = s.params ∧ t.ilen = s.ilen ∧ t.hostMoves = l ∧
      (t.status ≠ .busy ∨ t.status = .busy ∧ s.rp < t.rp ∧ t.rp ≤ s.ilen) := by
  have hrun : InProgress (s.withMoves l) := inProgress_of_inv (inv_withMoves h.inv l) h.busy
  obtain ⟨x, d, heffect, hcode⟩ := hrun.completes
  have hstep : step s = .next (x.withDraws d) := by
    rcases hm with ⟨hm, rfl⟩ | hm
    · rw [withMoves_self hm] at hcode
      exact (step_block hm h.busy).trans hcode
    · exact (step_wait_busy hm h.busy).trans hcode
  refine ⟨x.withDraws d, hstep, ?_⟩
  cases heffect with
  | halt => exact ⟨rfl, rfl, rfl, .inl (by simp)⟩
  | raise pos => exact ⟨rfl, rfl, rfl, .inl (by simp)⟩
  | emit out _ hlt =>
    refine ⟨rfl, rfl, rfl, .inr ⟨h.busy, ?_, rp_add_groupCount_le hrun.rp_le⟩⟩
    exact Nat.lt_add_of_pos_right (groupCount_pos hlt)

/-- While BUSY a command of the host takes its step and leaves the block (R186). -/
theorem Served.command_turn (h : Served c s) {r : HostRecord} {l : List HostMove}
    (hm : s.hostMoves = .issue r :: l) :
    ∃ t, step s = .next t ∧ s.SameBlock t ∧ t.hostMoves = l := by
  obtain ⟨i, hd, hw⟩ := h.decodable r (hm ▸ List.mem_cons_self)
  obtain ⟨t, hexec, hsame, hmoves⟩ :=
    busyIgnoresHost (s.withMoves l) i h.busy (decodeRecord_isHostCommand hd)
  exact ⟨t, ((step_issue hm).trans (runCode_ok hd hw)).trans hexec, hsame, hmoves⟩

/-- The bound of R183: the host's moves, and `c` steps for each cell left and for the halt. -/
def runBound (c : Nat) (s : State) : Nat :=
  movesCost s.params.ocap s.hostMoves + c * (s.ilen - s.rp + 1)

/-- A step of the block and what follows it, when a run that has moved on ends within its bound. -/
theorem Served.endsWithin_of_block_turn (h : Served c s) {l : List HostMove}
    (hm : (s.hostMoves = [] ∧ l = []) ∨ s.hostMoves = .wait :: l)
    (ih : ∀ t, Served c t → t.ilen - t.rp < s.ilen - s.rp → movesCost t.params.ocap t.hostMoves =
      movesCost s.params.ocap s.hostMoves → EndsWithin t (runBound c t)) :
    EndsWithin s (movesCost s.params.ocap s.hostMoves + c * (s.ilen - s.rp) + 1) := by
  obtain ⟨t, hstep, hparams, hilen, hmoves, hstatus⟩ := h.block_turn hm
  refine endsWithin_succ hstep ?_
  rcases hstatus with hended | ⟨hbusy, hlt, hle⟩
  · exact endsWithin_of_ended hended _
  · have hcost : movesCost t.params.ocap t.hostMoves = movesCost s.params.ocap s.hostMoves := by
      rw [hparams, hmoves]
      rcases hm with ⟨hm, rfl⟩ | hm
      · rw [hm]
      · rw [hm, movesCost_cons, HostMove.cost, Nat.zero_add]
    refine (ih t (h.of_step hstep hbusy) (by omega) hcost).mono ?_
    rw [runBound, hcost]
    exact Nat.add_le_add_left (Nat.mul_le_mul_left c (by omega)) _

end

/-- By induction on the host's steps and the cells left together: a command takes one of the former, a step of
the block one of the latter, and a poll with the step of the block behind it two steps for one cell. -/
theorem Served.endsWithin {c : Nat} (hc : 1 ≤ c) {s : State} (h : Served c s) :
    EndsWithin s (runBound c s) := by
  induction hk : movesCost s.params.ocap s.hostMoves + (s.ilen - s.rp) using Nat.strong_induction_on
    generalizing s with
  | _ k ih =>
    have hmul : c * (s.ilen - s.rp + 1) = c * (s.ilen - s.rp) + c := Nat.mul_succ _ _
    have block {u : State} (hu : u.ilen - u.rp = s.ilen - s.rp) (hcost : movesCost u.params.ocap u.hostMoves =
        movesCost s.params.ocap s.hostMoves) : ∀ t, Served c t → t.ilen - t.rp < u.ilen - u.rp →
        movesCost t.params.ocap t.hostMoves = movesCost u.params.ocap u.hostMoves →
        EndsWithin t (runBound c t) :=
      fun t ht hlt hmoves => ih _ (by omega) ht rfl
    cases hm : s.hostMoves with
    | nil =>
      refine (h.endsWithin_of_block_turn (.inl ⟨hm, rfl⟩) (block rfl rfl)).mono ?_
      rw [runBound]
      omega
    | cons move l =>
      cases move with
      | wait =>
        refine (h.endsWithin_of_block_turn (.inr hm) (block rfl rfl)).mono ?_
        rw [runBound]
        omega
      | reset => exact absurd (hm ▸ List.mem_cons_self) h.noReset
      | issue r =>
        obtain ⟨t, hstep, ⟨hparams, -, hilen, hstatus, hrp, -⟩, hmoves⟩ := h.command_turn hm
        have hcost : movesCost s.params.ocap s.hostMoves = movesCost t.params.ocap t.hostMoves + 1 := by
          rw [hm, movesCost_cons, hmoves, hparams, HostMove.cost, Nat.add_comm]
        have ht := ih _ (by rw [hilen, hrp]; omega) (h.of_step hstep (hstatus.trans h.busy)) rfl
        refine (endsWithin_succ hstep ht).mono ?_
        rw [runBound, runBound, hilen, hrp, hcost]
        omega
      | pollStatus =>
        have hpolls := h.polls (hm ▸ List.mem_cons_self)
        have hstep := step_pollStatus_busy hm h.busy
        have ht := h.of_step hstep h.busy
        refine (endsWithin_succ hstep (ht.endsWithin_of_block_turn (.inr rfl) (block rfl ?_))).mono ?_
        · simp [hm, HostMove.cost]
        · simp [runBound, hm, HostMove.cost]
          omega
      | readOutput =>
        have hstep := step_readOutput hm
        have hwp := h.inv.pointers.2
        have hcost : movesCost s.params.ocap s.hostMoves = 1 + s.params.ocap + movesCost s.params.ocap l := by
          rw [hm, movesCost_cons, HostMove.cost]
        have hreads := movesCost_readCells_append s.params.ocap 0 s.wp l
        have ht := ih _ (by simp [hreads]; omega) (h.of_step hstep h.busy) rfl
        refine (endsWithin_succ hstep ht).mono ?_
        simp [runBound, hreads]
        omega

/-- Settles O57: two steps for each step of the block where the host polls, one where it does not. -/
theorem everyRunEnds : Obligations.EveryRunEnds := by
  intro s hinv hb hreset hdecodable
  by_cases hpoll : HostMove.pollStatus ∈ s.hostMoves
  · rw [if_pos hpoll]
    exact Served.endsWithin (by decide) ⟨hinv, hb, hreset, hdecodable, fun _ => le_rfl⟩
  · rw [if_neg hpoll]
    exact Served.endsWithin (by decide) ⟨hinv, hb, hreset, hdecodable, fun h => absurd h hpoll⟩

end Sys2Proof.Proofs
end

section
/-! Proof of the obligation about a whole call (30_encoding.md R103): each command of the call takes one step,
the state after START is launched on the input, the WAIT lasts as long as the run, and the last step reads
OLEN. -/

namespace Sys2Proof.Proofs

open Sys2Proof.Machine

/-- Some number of steps leads from `s` to `t`. -/
def Reaches (s t : State) : Prop := ∃ n, Sys2Proof.core.run n s = .next t

theorem reaches_refl (s : State) : Reaches s s := ⟨0, rfl⟩

theorem reaches_of_step {s u t : State} (hstep : step s = .next u) (h : Reaches u t) : Reaches s t := by
  obtain ⟨n, hrun⟩ := h
  exact ⟨n + 1, (run_succ hstep n).trans hrun⟩

/-! ## The commands of the call -/

/-- The step of a host that issues `i`: the command runs, and the list has moved on. -/
theorem step_of_issue {s : State} {i : Instr} {r : HostRecord} {l : List HostMove} (hr : encode i = .hc r)
    (hm : s.hostMoves = issue i ++ l) (hw : i.wf s.params.lenW = true) :
    step s = exec i (s.withMoves l) := by
  have hissue : issue i = [.issue r] := by simp only [issue, hr]
  rw [hissue] at hm
  exact (step_issue hm).trans (runCode_ok (hr ▸ decode_encode i) hw)

/-- LEN_W is at least 2 (R9), so a bit fits in it. -/
theorem two_le_two_pow_lenW {p : Params} (hv : p.Valid) : 2 ≤ 2 ^ p.lenW :=
  (Nat.pow_le_pow_right (by decide) hv.1).trans' (by decide)

section
variable {s : State} {l : List HostMove}

theorem step_wbuf {a : Nat} {x : Byte} (hm : s.hostMoves = issue (.wbuf a x) ++ l)
    (hv : s.params.Valid) (hb : s.status ≠ .busy) (ha : a < s.params.icap) :
    step s = .next (((s.withMoves l).storeInput a x).answer none) := by
  have hw : Instr.wf s.params.lenW (.wbuf a x) = true := decide_eq_true (ha.trans hv.2.1)
  have hwrite : (s.withMoves l).writeBuffer a x = ((s.withMoves l).storeInput a x).answer none :=
    (writeBuffer_in_range (s := s.withMoves l) ha x).trans
      (unlessBusy_of_not_busy (s := s.withMoves l) hb _)
  exact (step_of_issue rfl hm hw).trans (congrArg _ hwrite)

theorem ofValue_toNat_bit (m : Mode) : Mode.ofValue m.bit.toNat = m := by cases m <;> rfl

theorem step_wreg_mode {m : Mode} (hm : s.hostMoves = issue (.wreg 2 m.bit.toNat) ++ l)
    (hv : s.params.Valid) (hb : s.status ≠ .busy) :
    step s = .next (((s.withMoves l).setMode m).answer none) := by
  have hbit : m.bit.toNat < 2 ^ 1 := m.bit.isLt
  have hw : Instr.wf s.params.lenW (.wreg 2 m.bit.toNat) = true :=
    decide_eq_true (hbit.trans_le (two_le_two_pow_lenW hv))
  have hwrite : (s.withMoves l).writeRegister 2 m.bit.toNat = ((s.withMoves l).setMode m).answer none :=
    (unlessBusy_of_not_busy (s := s.withMoves l) hb _).trans (by rw [ofValue_toNat_bit])
  exact (step_of_issue rfl hm hw).trans (congrArg _ hwrite)

theorem step_wreg_ilen {n : Nat} (hm : s.hostMoves = issue (.wreg 3 n) ++ l) (hn : n < 2 ^ s.params.lenW)
    (hb : s.status ≠ .busy) : step s = .next (((s.withMoves l).setIlen n).answer none) :=
  (step_of_issue rfl hm (decide_eq_true hn)).trans
    (congrArg _ (unlessBusy_of_not_busy (s := s.withMoves l) hb _))

theorem step_start (hm : s.hostMoves = pseudoStart ++ l) (hv : s.params.Valid) (hb : s.status ≠ .busy)
    (hp : s.LaunchPremise) : step s = .next ((s.withMoves l).launch.answer none) := by
  have hw : Instr.wf s.params.lenW (.wreg 0 1) = true := decide_eq_true (two_le_two_pow_lenW hv)
  exact ((step_of_issue rfl hm hw).trans (exec_wreg_ctrl_of_odd rfl _)).trans
    (congrArg _ (start_of_launchPremise (s := s.withMoves l) hb hp))

end

/-- The WBUF commands store the sequence, cell by cell. -/
theorem reaches_loaded {l : List HostMove} (xs : List Byte) : ∀ (a : Nat) (s : State),
    s.hostMoves = loadCells a xs ++ l → s.params.Valid → s.status ≠ .busy → a + xs.length ≤ s.params.icap →
    ∃ t, Reaches s t ∧ t.params = s.params ∧ t.status = s.status ∧ t.hostMoves = l ∧
      t.ibuf = s.ibuf.writeCells a xs := by
  induction xs with
  | nil => exact fun a s hm _ _ _ => ⟨s, reaches_refl s, rfl, rfl, hm, rfl⟩
  | cons x xs ih =>
    intro a s hm hv hb hcap
    rw [List.length_cons] at hcap
    rw [loadCells, List.append_assoc] at hm
    have hstep := step_wbuf hm hv hb (by omega)
    obtain ⟨t, hreach, hparams, hstatus, hmoves, hibuf⟩ :=
      ih (a + 1) (((s.withMoves (loadCells (a + 1) xs ++ l)).storeInput a x).answer none) rfl hv hb
        (by simp only [State.answer_params, State.storeInput_params, State.withMoves_params]; omega)
    exact ⟨t, reaches_of_step hstep hreach, hparams, hstatus, hmoves, hibuf⟩

theorem Reaches.trans {s u t : State} (h : Reaches s u) (h' : Reaches u t) : Reaches s t := by
  obtain ⟨n, hn⟩ := h
  induction n generalizing s with
  | zero => cases hn; exact h'
  | succ n ih =>
    obtain ⟨v, hstep, hrest⟩ := run_succ_next hn
    exact reaches_of_step hstep (ih hrest)

/-- A call up to START leads to a state launched on its input (R103, R177). -/
theorem reaches_launched {s : State} {m : Mode} {xs : List Byte} {l : List HostMove}
    (hm : s.hostMoves = callMoves m xs ++ l) (hv : s.params.Valid) (hb : s.status ≠ .busy)
    (hicap : xs.length ≤ s.params.icap) (hocap : outMax m xs.length ≤ s.params.ocap) :
    ∃ t, Reaches s t ∧ t.params = s.params ∧ t.mode = m ∧ t.Launched ∧ t.InputIs xs ∧ t.hostMoves = l := by
  simp only [callMoves, List.append_assoc] at hm
  obtain ⟨u, hload, hparams, hstatus, hmoves, hibuf⟩ := reaches_loaded xs 0 s hm hv hb (by omega)
  rw [← hparams] at hv hicap hocap ⊢
  rw [← hstatus] at hb
  have hcommands := reaches_of_step (step_wreg_mode hmoves hv hb)
    (reaches_of_step (step_wreg_ilen rfl (hicap.trans_lt hv.2.1) hb)
      (reaches_of_step (step_start rfl hv hb ⟨hicap, hocap⟩) (reaches_refl _)))
  refine ⟨_, hload.trans hcommands, rfl, rfl, ⟨rfl, rfl, rfl, rfl, hicap, hocap⟩, ⟨rfl, fun i v hi => ?_⟩,
    rfl⟩
  show u.ibuf.read (0 + i) = some v
  rw [hibuf]
  exact Memory.read_writeCells_inside s.ibuf 0 hi

/-! ## WAIT and the reads -/

/-- WAIT lasts as long as the run: each poll that reads 1 is followed by a step of the block. -/
theorem Running.reaches_result {s : State} {xs : List Byte} (hin : s.InputIs xs) {l : List HostMove} :
    ∀ n u, Running s xs u → u.hostMoves = .pollStatus :: l →
      stepsFrom s.mode xs.length u.rp (outcome s xs) = n →
      ∃ t, Reaches u t ∧ t.status ≠ .busy ∧ s.RunResult xs t ∧ t.hostMoves = .pollStatus :: l := by
  intro n
  induction n with
  | zero =>
    intro u hu _ hsteps
    cases hout : outcome s xs <;> rw [hout] at hsteps <;> cases hsteps
  | succ n ih =>
    intro u hu hm hsteps
    have hpoll := step_pollStatus_busy hm hu.progress.busy
    have hturn : Running s xs (((u.withMoves (.wait :: .pollStatus :: l)).answer (some (.reg 1))).withMoves
      (.pollStatus :: l)) := hu.sameBlock (sameBlock_refl u)
    obtain ⟨x, d, heffect, hcode⟩ := hturn.progress.completes
    have hblock := (step_wait_busy (s := (u.withMoves (.wait :: .pollStatus :: l)).answer (some (.reg 1)))
      rfl hu.progress.busy).trans hcode
    have hreach : Reaches u (x.withDraws d) :=
      reaches_of_step hpoll (reaches_of_step hblock (reaches_refl _))
    rcases hturn.blockEffect hin heffect with ⟨hx, hleft⟩ | ⟨hb, hres, -⟩
    · obtain ⟨t, ht, hrest⟩ := ih (x.withDraws d) (hx.sameBlock (sameBlock_refl x)) heffect.hostMoves
        (Nat.succ.inj (hleft.symm.trans hsteps))
      exact ⟨t, hreach.trans ht, hrest⟩
    · exact ⟨_, hreach, hb, runResult_sameBlock hres (sameBlock_refl x), heffect.hostMoves⟩

theorem runResult_outputIs {s t : State} {xs : List Byte} (h : s.RunResult xs t) :
    t.OutputIs (outcome s xs).bytes := by
  have hend := ((runResult_iff s t xs).mp h).2
  cases hout : outcome s xs with
  | ok ys =>
    rw [hout] at hend
    exact hend.2.2.2
  | err i ys =>
    rw [hout] at hend
    exact hend.2.2.2

/-- Settles O59: the call launches, WAIT ends with the result, and RREG OLEN returns its length. -/
theorem callDeliversResult : Obligations.CallDeliversResult := by
  intro s m xs hv hb hicap hocap hm result
  rw [pseudoCall, pseudoWait, List.append_assoc] at hm
  obtain ⟨u, hlaunch, hparams, hmode, hlaunched, hin, hmoves⟩ := reaches_launched hm hv hb hicap hocap
  obtain ⟨t, hwait, ht, hres, htmoves⟩ := (running_of_launched hlaunched xs).reaches_result hin _ u hmoves rfl
  have hout : t.OutputIs result := by
    have hbytes : (outcome u xs).bytes = result := by
      rw [outcome, hmode, hparams]
      cases m <;> rfl
    exact hbytes ▸ runResult_outputIs hres
  have hpoll := step_pollStatus_over htmoves ht
  have hread := step_readOutput
    (s := (t.withMoves [.readOutput]).answer (some (.reg t.status.code.toNat))) rfl
  obtain ⟨n, hrun⟩ := (hlaunch.trans hwait).trans
    (reaches_of_step hpoll (reaches_of_step hread (reaches_refl _)))
  refine ⟨n, _, hrun, ht, hout, ?_, ?_⟩
  · simp [hout.1]
  · simp [readCells_eq_map, hout.1]

end Sys2Proof.Proofs
end
